-- ==== Sys2Proof/Word.lean ====
section
/-! DEFINITION. The machine's word types (00_scope.md R8, R9). -/

namespace Sys2Proof

/-- A Word: 32 bits, bit 0 the least significant (R9). -/
abbrev Word := BitVec 32

/-- One byte of data memory (20_memory.md R61). -/
abbrev Byte := BitVec 8

/-- A register number, x0 to x31 (10_state.md R21). -/
abbrev RegNum := BitVec 5

end Sys2Proof
end

