-- ==== Sys2Proof/Machine/Flags.lean ====
section
/-! DEFINITION. The core has no flags (10_state.md R25). What a branch tests, it computes in Execute. -/

namespace Sys2Proof.Machine

/-- signed(A) < signed(B), the condition of BLT (00_scope.md R10, 43_branch.md R220). -/
def signedLess (a b : Word) : Bool := decide (a.toInt < b.toInt)

/-- signed(A) >= signed(B), the condition of BGE (43_branch.md R221). -/
def signedGreaterEqual (a b : Word) : Bool := decide (a.toInt ≥ b.toInt)

end Sys2Proof.Machine
end

