-- ==== Sys2Proof/Syntax.lean ====
section
/-! DEFINITION. The instructions: one constructor for each row of spec/opcode_table.json. Operands stand in the order
of the assembler's text (44_assembler.md R251 to R257), then the bits that the decoder ignores. -/

namespace Sys2Proof

/-- One 32-bit instruction word, taken apart (30_encoding.md R90 to R95). -/
inductive Instr where
  /-- AND rd, rs1, rs2 (41_logical.md R180). `funct7` is written 0 by the assembler and ignored by the decoder
  (30_encoding.md R102); it is kept so that no bit of a word is lost (entry 5). -/
  | and (rd rs1 rs2 : RegNum) (funct7 : BitVec 7)
  /-- OR rd, rs1, rs2 (41_logical.md R181); `funct7` as for AND. -/
  | or (rd rs1 rs2 : RegNum) (funct7 : BitVec 7)
  /-- ORI rd, rs1, imm (41_logical.md R182). -/
  | ori (rd rs1 : RegNum) (imm : BitVec 12)
  /-- LW rd, imm(rs1) (42_load_store.md R200). -/
  | lw (rd rs1 : RegNum) (imm : BitVec 12)
  /-- SW rs2, imm(rs1) (42_load_store.md R201). -/
  | sw (rs2 rs1 : RegNum) (imm : BitVec 12)
  /-- BLT rs1, rs2, offset (43_branch.md R220); the offset is an even byte offset of 13 bits (30_encoding.md R95). -/
  | blt (rs1 rs2 : RegNum) (offset : BitVec 13)
  /-- BGE rs1, rs2, offset (43_branch.md R221). -/
  | bge (rs1 rs2 : RegNum) (offset : BitVec 13)
  /-- `.WORD v` (44_assembler.md R257): a raw word. -/
  | word (v : Word)
  deriving DecidableEq, Repr

end Sys2Proof
end

