-- ==== Sys2Proof/Decode.lean ====
section
/-! DEFINITION. The fields of a word, the opcode map, the decoder and the encoder (30_encoding.md R90 to R107). Every
word has a class, so the decoder refuses no word (R102, R103). -/

namespace Sys2Proof

/-- opcode, bits 6:0 (R91). -/
def opcodeOf (w : Word) : BitVec 7 := w.extractLsb' 0 7

/-- rd, bits 11:7 (R91). -/
def rdOf (w : Word) : RegNum := w.extractLsb' 7 5

/-- funct3, bits 14:12 (R91). -/
def funct3Of (w : Word) : BitVec 3 := w.extractLsb' 12 3

/-- rs1, bits 19:15 (R91). -/
def rs1Of (w : Word) : RegNum := w.extractLsb' 15 5

/-- rs2, bits 24:20 (R91). -/
def rs2Of (w : Word) : RegNum := w.extractLsb' 20 5

/-- funct7, bits 31:25 (R91). -/
def funct7Of (w : Word) : BitVec 7 := w.extractLsb' 25 7

/-- The 12 bits of an I immediate, IR[31:20] (R93, R96). -/
def immIOf (w : Word) : BitVec 12 := w.extractLsb' 20 12

/-- The 12 bits of an S immediate, IR[31:25] ++ IR[11:7] (R94, R97). -/
def immSOf (w : Word) : BitVec 12 := w.extractLsb' 25 7 ++ w.extractLsb' 7 5

/-- The 13 bits of a B immediate, IR[31] ++ IR[7] ++ IR[30:25] ++ IR[11:8] ++ 0 (R95, R98). -/
def immBOf (w : Word) : BitVec 13 :=
  w.extractLsb' 31 1 ++ w.extractLsb' 7 1 ++ w.extractLsb' 25 6 ++ w.extractLsb' 8 4 ++ 0#1

/-- The class of a word (00_scope.md R16, 30_encoding.md R102). -/
inductive InstrClass where
  | and
  | or
  | ori
  | lw
  | sw
  | blt
  | bge
  | illegal
  deriving DecidableEq, Repr

/-- The formats that carry an immediate, and the two that do not (R92 to R95, R99). -/
inductive Format where
  | r
  | i
  | s
  | b
  | none
  deriving DecidableEq, Repr

/-- One row of the opcode map (R101). -/
structure OpcodeRow where
  cls : InstrClass
  value : Word
  mask : Word
  deriving DecidableEq, Repr

/-- The opcode map (R101, spec/opcode_table.json). PRESUMED by the spec itself (D1, from general knowledge): entry 1. -/
def opcodeMap : List OpcodeRow :=
  [ ⟨.and, 0x00007033#32, 0x0000707F#32⟩,
    ⟨.or, 0x00006033#32, 0x0000707F#32⟩,
    ⟨.ori, 0x00006013#32, 0x0000707F#32⟩,
    ⟨.lw, 0x00002003#32, 0x0000707F#32⟩,
    ⟨.sw, 0x00002023#32, 0x0000707F#32⟩,
    ⟨.blt, 0x00004063#32, 0x0000707F#32⟩,
    ⟨.bge, 0x00005063#32, 0x0000707F#32⟩ ]

/-- The class of a word: the row it matches, ILLEGAL when it matches none (R102, R103). -/
def classOf (w : Word) : InstrClass :=
  match opcodeMap.find? (fun row => w &&& row.mask == row.value) with
  | some row => row.cls
  | none => .illegal

/-- The immediate's format, chosen by the opcode alone (R100). -/
def formatOf (w : Word) : Format :=
  if opcodeOf w = 0b0010011#7 then .i
  else if opcodeOf w = 0b0000011#7 then .i
  else if opcodeOf w = 0b0100011#7 then .s
  else if opcodeOf w = 0b1100011#7 then .b
  else if opcodeOf w = 0b0110011#7 then .r
  else .none

/-- The immediate that Decode forms (R96 to R100). -/
def immGen (w : Word) : Word :=
  match formatOf w with
  | .i => (immIOf w).signExtend 32
  | .s => (immSOf w).signExtend 32
  | .b => (immBOf w).signExtend 32
  | .r => 0#32
  | .none => 0#32

/-- The decoder: a word's class and the operands of its format (R91 to R98, R102). A word of class ILLEGAL is
`.word` of itself (R103). -/
def decode (w : Word) : Instr :=
  match classOf w with
  | .and => .and (rdOf w) (rs1Of w) (rs2Of w) (funct7Of w)
  | .or => .or (rdOf w) (rs1Of w) (rs2Of w) (funct7Of w)
  | .ori => .ori (rdOf w) (rs1Of w) (immIOf w)
  | .lw => .lw (rdOf w) (rs1Of w) (immIOf w)
  | .sw => .sw (rs2Of w) (rs1Of w) (immSOf w)
  | .blt => .blt (rs1Of w) (rs2Of w) (immBOf w)
  | .bge => .bge (rs1Of w) (rs2Of w) (immBOf w)
  | .illegal => .word w

/-- R format: funct7 ++ rs2 ++ rs1 ++ funct3 ++ rd ++ opcode (R92). -/
def encodeR (funct7 : BitVec 7) (rs2 rs1 : RegNum) (funct3 : BitVec 3) (rd : RegNum) (opcode : BitVec 7) : Word :=
  funct7 ++ rs2 ++ rs1 ++ funct3 ++ rd ++ opcode

/-- I format: imm[11:0] ++ rs1 ++ funct3 ++ rd ++ opcode (R93). -/
def encodeI (imm : BitVec 12) (rs1 : RegNum) (funct3 : BitVec 3) (rd : RegNum) (opcode : BitVec 7) : Word :=
  imm ++ rs1 ++ funct3 ++ rd ++ opcode

/-- S format: imm[11:5] ++ rs2 ++ rs1 ++ funct3 ++ imm[4:0] ++ opcode (R94). -/
def encodeS (imm : BitVec 12) (rs2 rs1 : RegNum) (funct3 : BitVec 3) (opcode : BitVec 7) : Word :=
  imm.extractLsb' 5 7 ++ rs2 ++ rs1 ++ funct3 ++ imm.extractLsb' 0 5 ++ opcode

/-- B format: imm[12] ++ imm[10:5] ++ rs2 ++ rs1 ++ funct3 ++ imm[4:1] ++ imm[11] ++ opcode (R95). Bit 0 of the
offset is implicit. -/
def encodeB (imm : BitVec 13) (rs2 rs1 : RegNum) (funct3 : BitVec 3) (opcode : BitVec 7) : Word :=
  imm.extractLsb' 12 1 ++ imm.extractLsb' 5 6 ++ rs2 ++ rs1 ++ funct3 ++ imm.extractLsb' 1 4
    ++ imm.extractLsb' 11 1 ++ opcode

/-- The encoder (R92 to R95, R101, R105). -/
def encode : Instr → Word
  | .and rd rs1 rs2 funct7 => encodeR funct7 rs2 rs1 0b111#3 rd 0b0110011#7
  | .or rd rs1 rs2 funct7 => encodeR funct7 rs2 rs1 0b110#3 rd 0b0110011#7
  | .ori rd rs1 imm => encodeI imm rs1 0b110#3 rd 0b0010011#7
  | .lw rd rs1 imm => encodeI imm rs1 0b010#3 rd 0b0000011#7
  | .sw rs2 rs1 imm => encodeS imm rs2 rs1 0b010#3 0b0100011#7
  | .blt rs1 rs2 offset => encodeB offset rs2 rs1 0b100#3 0b1100011#7
  | .bge rs1 rs2 offset => encodeB offset rs2 rs1 0b101#3 0b1100011#7
  | .word v => v

/-- The instruction read from a word whose low `nbits` bits are `w`. An instruction is one 32-bit word, held whole
(R90, 20_memory.md R64), so more than 32 bits is no instruction. -/
def decodeTableWord (nbits w : Nat) : Option Instr :=
  if nbits ≤ 32 then some (decode (BitVec.ofNat 32 (w % 2 ^ nbits))) else none

end Sys2Proof
end

