-- ==== Sys2Proof/Config.lean ====
section
/-! DEFINITION. What the spec fixes or leaves as a parameter (00_scope.md R8), and the one free value: the text of an
assembler message (44_assembler.md R266, 93_implementation_defined.md I11). -/

namespace Sys2Proof

/-- The first address past the DATA segment: DATA is 0x00 to 0x7F (20_memory.md R60). -/
def Config.dataEnd : Word := 0x80#32

/-- PROG_START, the first address of the PROGRAM segment and the reset value of PC (R8, 10_state.md R24). -/
def Config.progStart : Word := 0x80#32

/-- The first address past the PROGRAM segment, 0x80 to 0xFF (20_memory.md R60, 44_assembler.md R259). -/
def Config.progEnd : Word := 0x100#32

/-- RUN_CAP, the default of the parameter `maxCycles` of `run` (40_pipeline.md R149, D8). -/
def Config.runCap : Nat := 1000

/-- The two kinds of EncodingError (44_assembler.md R266). -/
inductive ErrorKind where
  | syntaxError
  | rangeError
  deriving DecidableEq, Repr

/-- What an assembly can fail on: the failures that 44_assembler.md R242 to R259 name. -/
inductive AsmFailure where
  /-- R242: the text before a line's first colon is no name. -/
  | malformedLabel
  /-- R247: a label name is defined a second time. -/
  | duplicateLabel
  /-- R259: an instruction-bearing line whose address would be 0x100 or more. -/
  | programTooLong
  /-- R244: the mnemonic is none of the eight. -/
  | unsupportedMnemonic
  /-- R245: the number of operands is not the mnemonic's. -/
  | wrongOperandCount
  /-- R243: an operand is empty. -/
  | malformedOperand
  /-- R248: an operand in a register position is not x0 to x31. -/
  | malformedRegister
  /-- R249: an operand in an immediate position is neither decimal nor hex. -/
  | malformedImmediate
  /-- R253, R254, R255: the operand is no memory operand, or no offset and no label name. -/
  | malformedOffset
  /-- R250: an immediate outside its field's range. -/
  | outOfRangeImmediate
  /-- R256: an odd numeric branch offset. -/
  | oddOffset
  /-- R258: a label reference to a name that no line defines. -/
  | unresolvedLabel
  deriving DecidableEq, Repr

/-- The kind of each failure (44_assembler.md R266, D22): an out-of-range immediate, an odd branch offset and capacity
overflow are RangeErrors, everything else is a SyntaxError. -/
def AsmFailure.kind : AsmFailure → ErrorKind
  | .outOfRangeImmediate => .rangeError
  | .oddOffset => .rangeError
  | .programTooLong => .rangeError
  | .malformedLabel => .syntaxError
  | .duplicateLabel => .syntaxError
  | .unsupportedMnemonic => .syntaxError
  | .wrongOperandCount => .syntaxError
  | .malformedOperand => .syntaxError
  | .malformedRegister => .syntaxError
  | .malformedImmediate => .syntaxError
  | .malformedOffset => .syntaxError
  | .unresolvedLabel => .syntaxError

/-- The text of the message that names a failure: any text (I11). DESIGN CHOICE, safe: a free value, entry 9. -/
opaque Config.messageText : AsmFailure → String

end Sys2Proof
end

