-- ==== Sys2Proof/Machine/State.lean ====
section
/-! DEFINITION. The machine's state (10_state.md R20 to R38), all of it, as plain data, and the state right after
reset (70_reset_and_hazards.md R320). -/

namespace Sys2Proof.Machine

/-- A pipeline register: Bubble, or a record. Bubble is a tag of its own, distinct from every record (10_state.md R26,
00_scope.md R14). -/
inductive Latch (ρ : Type) where
  | bubble
  | record (r : ρ)
  deriving DecidableEq, Repr

/-- The IF/ID record (R28): the fetched word, PC + 4, and the address it was fetched from. -/
structure IfId where
  ir : Word
  npc : Word
  pc : Word
  deriving DecidableEq, Repr

/-- The ID/EX record (R29): IR, NPC and PC of IF/ID, the two register values, and the immediate. -/
structure IdEx where
  ir : Word
  npc : Word
  pc : Word
  a : Word
  b : Word
  imm : Word
  deriving DecidableEq, Repr

/-- The EX/MEM record (R30). `cond` is true exactly when it holds a taken branch (R25). -/
structure ExMem where
  ir : Word
  aluOutput : Word
  b : Word
  cond : Bool
  deriving DecidableEq, Repr

/-- The MEM/WB record (R31). -/
structure MemWb where
  ir : Word
  lmd : Word
  aluOutput : Word
  deriving DecidableEq, Repr

/-- The WB record (R32): destination, value, and whether the register was written. No stage reads it. -/
structure WbRec where
  ir : Word
  rd : RegNum
  value : Word
  we : Bool
  deriving DecidableEq, Repr

/-- The register file, 32 words (R21). -/
abbrev RegFile := Vector Word 32

/-- Data memory (20_memory.md R61): the bytes that are not 0x00, by rising address. An address that is not listed reads
0x00, the value reset gives every byte. -/
abbrev Memory := List Host.Cell

/-- ProgramMemory (10_state.md R35): whole words by rising address. An address that is not listed maps to no
instruction. -/
abbrev Program := List (Nat × Word)

/-- The state tuple (R20), and ProgramMemory, which the spec calls the machine's parameter (R35; entry 2). -/
structure State where
  /-- RF, x0 to x31 (R21). -/
  rf : RegFile
  /-- DMEM (20_memory.md R61). -/
  dmem : Memory
  /-- PC (R24). -/
  pc : Word
  /-- IF/ID (R28). -/
  ifid : Latch IfId
  /-- ID/EX (R29). -/
  idex : Latch IdEx
  /-- EX/MEM (R30). -/
  exmem : Latch ExMem
  /-- MEM/WB (R31). -/
  memwb : Latch MemWb
  /-- The WB record (R32). -/
  wbr : Latch WbRec
  /-- The cycle counter, unbounded (R33). -/
  cycle : Nat
  /-- ProgramMemory (R35). -/
  program : Program
  deriving DecidableEq, Repr

/-- The status of the core (40_pipeline.md R143): a function of the state, not a field (10_state.md R34). -/
inductive Status where
  | running
  | complete
  deriving DecidableEq, Repr

/-- The reasons a step can stop with a fault: there are none. The core raises no exception and `step` cannot fail
(60_exceptions.md R290, 40_pipeline.md R148). DEDUCED, safe: entry 11. -/
inductive Fault where
  deriving DecidableEq, Repr

/-- The reasons an operation can be refused. -/
inductive Refusal where
  /-- An instruction without a meaning yet. No arm of `exec` answers so any more. Safe: it stops. -/
  | notModelled (mnemonic : String)
  /-- Raised by the host operation `peekRegister` alone, for an index outside 0 to 31 (40_pipeline.md R150,
  93_implementation_defined.md I8). Safe: the spec says that a model refuses it. -/
  | noSuchRegister (index : Int)
  deriving DecidableEq, Repr

/-- The machine right after reset (70_reset_and_hazards.md R320): registers and data memory zero, every pipeline
register a Bubble, PC at PROG_START, cycle 0. Reset leaves ProgramMemory alone (R321); here it is the empty map, as
before the first `assemble` (D29). DESIGN CHOICE, entry 3. -/
def State.reset : State where
  rf := Vector.replicate 32 0#32
  dmem := []
  pc := Config.progStart
  ifid := .bubble
  idex := .bubble
  exmem := .bubble
  memwb := .bubble
  wbr := .bubble
  cycle := 0
  program := []

end Sys2Proof.Machine
end

