-- ==== Sys2Proof/Machine/Ops.lean ====
section
/-! DEFINITION. The named operations on registers, data memory and program memory. The core takes no exception
(60_exceptions.md R290, R295, R296), so there is no operation that takes one and none that returns from one. -/

namespace Sys2Proof.Machine

/-! ### Registers -/

/-- `x[i]`: register i, and 0 for x0 (00_scope.md R12, 10_state.md R22). -/
def readReg (rf : RegFile) (i : RegNum) : Word :=
  if i = 0#5 then 0#32 else rf[i.toNat]'(i.isLt)

/-- `x[i] <- v`: no effect for x0 (R12, R22). -/
def writeReg (rf : RegFile) (i : RegNum) (v : Word) : RegFile :=
  if i = 0#5 then rf else rf.set i.toNat v i.isLt

/-! ### Data memory -/

/-- The byte at an address: 0x00 where none is listed, the value reset gives every byte (20_memory.md R61). -/
def readByte (m : Memory) (a : Nat) : Byte :=
  match m.find? (fun cell => cell.1 == a) with
  | some cell => cell.2
  | none => 0#8

/-- Store one byte, keeping addresses rising and listing no 0x00. -/
def writeByte (a : Nat) (v : Byte) : Memory → Memory
  | [] => if v = 0#8 then [] else [(a, v)]
  | cell :: rest =>
    if a < cell.1 then
      if v = 0#8 then cell :: rest else (a, v) :: cell :: rest
    else if a = cell.1 then
      if v = 0#8 then rest else (a, v) :: rest
    else cell :: writeByte a v rest

/-- The canonical form of data memory: addresses strictly rising, all in DATA, no byte listed that is 0x00. -/
abbrev Memory.wf (m : Memory) : Prop :=
  m.Pairwise (fun x y => x.1 < y.1) ∧ ∀ cell ∈ m, cell.1 < 0x80 ∧ cell.2 ≠ 0#8

/-- DataAdmit(a): below 0x80, compared unsigned, and a multiple of 4 (20_memory.md R65). -/
def dataAdmit (a : Word) : Bool :=
  decide (a < Config.dataEnd) && a.extractLsb' 0 2 == 0#2

/-- MemRead(a, 4): the little-endian word, or 0 where the access is not admitted (R64, R66). -/
def memRead (m : Memory) (a : Word) : Word :=
  if dataAdmit a then
    readByte m (a.toNat + 3) ++ readByte m (a.toNat + 2) ++ readByte m (a.toNat + 1) ++ readByte m a.toNat
  else 0#32

/-- MemWrite(a, 4, v): the four bytes, least significant lowest, or nothing where the access is not admitted (R67). -/
def memWrite (m : Memory) (a : Word) (v : Word) : Memory :=
  if dataAdmit a then
    writeByte (a.toNat + 3) (v.extractLsb' 24 8)
      (writeByte (a.toNat + 2) (v.extractLsb' 16 8)
        (writeByte (a.toNat + 1) (v.extractLsb' 8 8)
          (writeByte a.toNat (v.extractLsb' 0 8) m)))
  else m

/-! ### Program memory -/

/-- The word that PC maps to, if any (10_state.md R35, 20_memory.md R69). -/
def fetchWord (p : Program) (pc : Word) : Option Word :=
  (p.find? (fun entry => entry.1 == pc.toNat)).map (·.2)

/-- Replace or add one word, keeping addresses rising. -/
def installWord (a : Nat) (w : Word) : Program → Program
  | [] => [(a, w)]
  | entry :: rest =>
    if a < entry.1 then (a, w) :: entry :: rest
    else if a = entry.1 then (a, w) :: rest
    else entry :: installWord a w rest

/-- An address that ProgramMemory can map: a multiple of 4 in 0x80 to 0xFC (R35). -/
def programAddress (a : Nat) : Bool :=
  decide (Config.progStart.toNat ≤ a) && decide (a < Config.progEnd.toNat) && a % 4 == 0

/-- The form of ProgramMemory: addresses strictly rising, each one that R35 allows. -/
abbrev Program.wf (p : Program) : Prop :=
  p.Pairwise (fun x y => x.1 < y.1) ∧ ∀ entry ∈ p, programAddress entry.1 = true

/-! ### Outcomes -/

/-- Go on from a next state; a fault or a refusal stands. -/
def andThen {σ τ φ ρ : Type} (o : Host.Outcome σ φ ρ) (f : σ → Host.Outcome τ φ ρ) : Host.Outcome τ φ ρ :=
  match o with
  | .next s => f s
  | .fault r => .fault r
  | .refused r => .refused r

end Sys2Proof.Machine
end

