-- ==== Sys2Proof/Machine/Operands.lean ====
section
/-! DEFINITION. What Decode reads for every instruction, and the operand forms that Execute computes with. -/

namespace Sys2Proof.Machine

/-- Decode of one word (40_pipeline.md R137): A and B from the fixed register fields whatever the class (30_encoding.md
R107), IMM by the opcode's format. -/
def decodeRecord (f : IfId) (rf : RegFile) : IdEx where
  ir := f.ir
  npc := f.npc
  pc := f.pc
  a := readReg rf (rs1Of f.ir)
  b := readReg rf (rs2Of f.ir)
  imm := immGen f.ir

/-- The immediate of ORI: the low 12 bits of IMM, ZERO-extended (41_logical.md R182). -/
def oriImmediate (imm : Word) : Word := imm &&& 0x00000FFF#32

/-- Base plus displacement, wrapping (42_load_store.md R202). -/
def effectiveAddress (a imm : Word) : Word := a + imm

/-- The branch's own address plus the offset, wrapping (43_branch.md R222). -/
def branchTarget (pc imm : Word) : Word := pc + imm

end Sys2Proof.Machine
end

