-- ==== Sys2Proof/Machine/Pipeline.lean ====
section
/-! DEFINITION. The five stage units (40_pipeline.md R130), and one clock cycle of one instruction.

What an instruction does is given stage by stage (its rules for EX, MEM and WB in 41_logical.md, 42_load_store.md and
43_branch.md): a value of `StageRules`. `cycleOf i rules s` is the clock cycle at `s` of the machine in which `i` is
the only instruction in flight: every stage of `s` that holds the instruction `i` does what `rules` says, and a stage
that holds another instruction is empty. The clock cycle of the whole machine, Machine/Cycle.lean, takes each stage's
part from the instruction that the stage holds (entry 4). -/

namespace Sys2Proof.Machine

/-- What one instruction does in EX, MEM and WB. -/
structure StageRules where
  /-- EX (R135): A, B, IMM and PC of ID/EX to ALUOUTPUT and cond. -/
  execute : Word → Word → Word → Word → Word × Bool
  /-- MEM (R134): ALUOUTPUT and B of EX/MEM, and DMEM, to LMD and the new DMEM. -/
  access : Word → Word → Memory → Word × Memory
  /-- WB (R133): VALUE. -/
  select : MemWb → Word
  /-- WB (R133): the destination register of a class that has one. -/
  dest : Option RegNum

/-- MEM of an instruction that accesses no memory: LMD is 0 (R134, D10). -/
def noAccess : Word → Word → Memory → Word × Memory := fun _ _ m => (0#32, m)

/-- VALUE of an instruction that is no load (R133). -/
def aluResult : MemWb → Word := fun m => m.aluOutput

/-- VALUE of a load (R133). -/
def loadResult : MemWb → Word := fun m => m.lmd

/-- Keep a record only if its word passes the test; otherwise the stage is empty. -/
def Latch.only {ρ : Type} (keep : ρ → Bool) : Latch ρ → Latch ρ
  | .bubble => .bubble
  | .record r => if keep r then .record r else .bubble

/-- WB, the write-back multiplexer (R133): the register write and the WB record. -/
def writeBackUnit (rules : StageRules) (latch : Latch MemWb) (rf : RegFile) : RegFile × Latch WbRec :=
  match latch with
  | .bubble => (rf, .bubble)
  | .record m =>
    match rules.dest with
    | some rd =>
      (writeReg rf rd (rules.select m), .record ⟨m.ir, rdOf m.ir, rules.select m, decide (rd ≠ 0#5)⟩)
    | none => (rf, .record ⟨m.ir, rdOf m.ir, rules.select m, false⟩)

/-- MEM, the load-store unit (R134). -/
def memoryUnit (rules : StageRules) (latch : Latch ExMem) (dmem : Memory) : Latch MemWb × Memory :=
  match latch with
  | .bubble => (.bubble, dmem)
  | .record e =>
    (.record ⟨e.ir, (rules.access e.aluOutput e.b dmem).1, e.aluOutput⟩, (rules.access e.aluOutput e.b dmem).2)

/-- EX, the ALU (R135). -/
def executeUnit (rules : StageRules) (latch : Latch IdEx) : Latch ExMem :=
  match latch with
  | .bubble => .bubble
  | .record d =>
    .record ⟨d.ir, (rules.execute d.a d.b d.imm d.pc).1, d.b, (rules.execute d.a d.b d.imm d.pc).2⟩

/-- ID, the decoder (R137). -/
def decodeUnit (latch : Latch IfId) (rf : RegFile) : Latch IdEx :=
  match latch with
  | .bubble => .bubble
  | .record f => .record (decodeRecord f rf)

/-- IF, the fetch unit (R139), given the word that PC maps to. -/
def fetchUnit (word : Option Word) (pc : Word) : Latch IfId × Word :=
  match word with
  | some w => (.record ⟨w, pc + 4#32, pc⟩, pc + 4#32)
  | none => (.bubble, pc)

/-- The redirect that EX orders: the target of a taken branch (R135: taken is cond = 1, target is ALUOUTPUT). -/
def redirect (latch : Latch ExMem) : Option Word :=
  match latch with
  | .bubble => none
  | .record e => if e.cond then some e.aluOutput else none

/-- ID under the freeze (R138): a taken branch makes the next ID/EX a Bubble. -/
def squashDecode (taken : Option Word) (decoded : Latch IdEx) : Latch IdEx :=
  match taken with
  | some _ => .bubble
  | none => decoded

/-- IF under the freeze (R140): a taken branch makes the next IF/ID a Bubble and PC the target. -/
def redirectFetch (taken : Option Word) (fetched : Latch IfId × Word) : Latch IfId × Word :=
  match taken with
  | some target => (.bubble, target)
  | none => fetched

/-- One clock cycle at `s` of the machine in which `i`, doing what `rules` says, is the only instruction in flight. -/
def cycleOf (i : Instr) (rules : StageRules) (s : State) : State :=
  let wb := writeBackUnit rules (s.memwb.only (fun m => decode m.ir == i)) s.rf
  let mem := memoryUnit rules (s.exmem.only (fun e => decode e.ir == i)) s.dmem
  let ex := executeUnit rules (s.idex.only (fun d => decode d.ir == i))
  let id := decodeUnit (s.ifid.only (fun f => decode f.ir == i)) s.rf
  let fetched := fetchUnit ((fetchWord s.program s.pc).filter (fun w => decode w == i)) s.pc
  { rf := wb.1
    dmem := mem.2
    pc := (redirectFetch (redirect ex) fetched).2
    ifid := (redirectFetch (redirect ex) fetched).1
    idex := squashDecode (redirect ex) id
    exmem := ex
    memwb := mem.1
    wbr := wb.2
    cycle := s.cycle + 1
    program := s.program }

/-- One clock cycle at `s` of the machine with nothing in flight and nothing fetched. -/
def idleCycle (s : State) : State :=
  { s with
    ifid := .bubble
    idex := .bubble
    exmem := .bubble
    memwb := .bubble
    wbr := .bubble
    cycle := s.cycle + 1 }

end Sys2Proof.Machine
end

