-- ==== Sys2Proof/Machine/Branch.lean ====
section
/-! DEFINITION. BLT and BGE (43_branch.md R220 to R225): condition and target in EX, the target computed whether taken
or not (D10); nothing in MEM and WB. -/

namespace Sys2Proof.Machine

/-- BLT (R220). -/
def bltRules : StageRules where
  execute := fun a b imm pc => (branchTarget pc imm, signedLess a b)
  access := noAccess
  select := aluResult
  dest := none

/-- BGE (R221). -/
def bgeRules : StageRules where
  execute := fun a b imm pc => (branchTarget pc imm, signedGreaterEqual a b)
  access := noAccess
  select := aluResult
  dest := none

/-- The clock cycle of BLT rs1, rs2, offset (R220). -/
def execBlt (rs1 rs2 : RegNum) (offset : BitVec 13) (s : State) : Host.Outcome State Fault Refusal :=
  .next (cycleOf (.blt rs1 rs2 offset) bltRules s)

/-- The clock cycle of BGE rs1, rs2, offset (R221). -/
def execBge (rs1 rs2 : RegNum) (offset : BitVec 13) (s : State) : Host.Outcome State Fault Refusal :=
  .next (cycleOf (.bge rs1 rs2 offset) bgeRules s)

end Sys2Proof.Machine
end

