-- ==== Sys2Proof/Machine/LoadStore.lean ====
section
/-! DEFINITION. LW and SW (42_load_store.md R200 to R202): the address in EX, the access in MEM, LMD to rd in WB for
LW. -/

namespace Sys2Proof.Machine

/-- LW (R200): ALUOUTPUT <- A + IMM; LMD <- MemRead(ALUOUTPUT, 4); x[rd] <- LMD. -/
def lwRules (rd : RegNum) : StageRules where
  execute := fun a _ imm _ => (effectiveAddress a imm, false)
  access := fun alu _ m => (memRead m alu, m)
  select := loadResult
  dest := some rd

/-- SW (R201): ALUOUTPUT <- A + IMM; MemWrite(ALUOUTPUT, 4, B); LMD is 0; no register write (D5). -/
def swRules : StageRules where
  execute := fun a _ imm _ => (effectiveAddress a imm, false)
  access := fun alu b m => (0#32, memWrite m alu b)
  select := aluResult
  dest := none

/-- The clock cycle of LW rd, imm(rs1) (R200). -/
def execLw (rd rs1 : RegNum) (imm : BitVec 12) (s : State) : Host.Outcome State Fault Refusal :=
  .next (cycleOf (.lw rd rs1 imm) (lwRules rd) s)

/-- The clock cycle of SW rs2, imm(rs1) (R201). -/
def execSw (rs2 rs1 : RegNum) (imm : BitVec 12) (s : State) : Host.Outcome State Fault Refusal :=
  .next (cycleOf (.sw rs2 rs1 imm) swRules s)

end Sys2Proof.Machine
end

