-- ==== Sys2Proof/Machine/Logical.lean ====
section
/-! DEFINITION. AND, OR and ORI (41_logical.md R180 to R183): a bitwise function in EX, nothing in MEM, ALUOUTPUT to rd
in WB. -/

namespace Sys2Proof.Machine

/-- AND (R180): ALUOUTPUT <- A & B. -/
def andRules (rd : RegNum) : StageRules where
  execute := fun a b _ _ => (a &&& b, false)
  access := noAccess
  select := aluResult
  dest := some rd

/-- OR (R181): ALUOUTPUT <- A | B. -/
def orRules (rd : RegNum) : StageRules where
  execute := fun a b _ _ => (a ||| b, false)
  access := noAccess
  select := aluResult
  dest := some rd

/-- ORI (R182): ALUOUTPUT <- A | (IMM & 0x00000FFF). -/
def oriRules (rd : RegNum) : StageRules where
  execute := fun a _ imm _ => (a ||| oriImmediate imm, false)
  access := noAccess
  select := aluResult
  dest := some rd

/-- The clock cycle of AND rd, rs1, rs2 (R180). -/
def execAnd (rd rs1 rs2 : RegNum) (funct7 : BitVec 7) (s : State) : Host.Outcome State Fault Refusal :=
  .next (cycleOf (.and rd rs1 rs2 funct7) (andRules rd) s)

/-- The clock cycle of OR rd, rs1, rs2 (R181). -/
def execOr (rd rs1 rs2 : RegNum) (funct7 : BitVec 7) (s : State) : Host.Outcome State Fault Refusal :=
  .next (cycleOf (.or rd rs1 rs2 funct7) (orRules rd) s)

/-- The clock cycle of ORI rd, rs1, imm (R182). -/
def execOri (rd rs1 : RegNum) (imm : BitVec 12) (s : State) : Host.Outcome State Fault Refusal :=
  .next (cycleOf (.ori rd rs1 imm) (oriRules rd) s)

end Sys2Proof.Machine
end

