-- ==== Sys2Proof/Machine/Directive.lean ====
section
/-! DEFINITION. Words placed by `.WORD` (44_assembler.md R257): a word is executed as the class its bits select, and a
word of class ILLEGAL passes through with no effect (40_pipeline.md R136). -/

namespace Sys2Proof.Machine

/-- ILLEGAL (40_pipeline.md R136): ALUOUTPUT 0, cond 0, no access, no register write. -/
def illegalRules : StageRules where
  execute := fun _ _ _ _ => (0#32, false)
  access := noAccess
  select := aluResult
  dest := none

/-- The clock cycle of the raw word `v` (R257): that of the instruction its bits select. -/
def execWord (v : Word) (s : State) : Host.Outcome State Fault Refusal :=
  match decode v with
  | .and rd rs1 rs2 funct7 => execAnd rd rs1 rs2 funct7 s
  | .or rd rs1 rs2 funct7 => execOr rd rs1 rs2 funct7 s
  | .ori rd rs1 imm => execOri rd rs1 imm s
  | .lw rd rs1 imm => execLw rd rs1 imm s
  | .sw rs2 rs1 imm => execSw rs2 rs1 imm s
  | .blt rs1 rs2 offset => execBlt rs1 rs2 offset s
  | .bge rs1 rs2 offset => execBge rs1 rs2 offset s
  | .word w => .next (cycleOf (.word w) illegalRules s)

end Sys2Proof.Machine
end

