-- ==== Sys2Proof/Machine/Dispatch.lean ====
section
/-! DEFINITION. One arm for each instruction: the clock cycle in which it is the only instruction in flight. -/

namespace Sys2Proof.Machine

def exec (i : Instr) (s : State) : Host.Outcome State Fault Refusal :=
  match i with
  | .and rd rs1 rs2 funct7 => Sys2Proof.Machine.execAnd rd rs1 rs2 funct7 s
  | .or rd rs1 rs2 funct7 => Sys2Proof.Machine.execOr rd rs1 rs2 funct7 s
  | .ori rd rs1 imm => Sys2Proof.Machine.execOri rd rs1 imm s
  | .lw rd rs1 imm => Sys2Proof.Machine.execLw rd rs1 imm s
  | .sw rs2 rs1 imm => Sys2Proof.Machine.execSw rs2 rs1 imm s
  | .blt rs1 rs2 offset => Sys2Proof.Machine.execBlt rs1 rs2 offset s
  | .bge rs1 rs2 offset => Sys2Proof.Machine.execBge rs1 rs2 offset s
  | .word v => Sys2Proof.Machine.execWord v s

end Sys2Proof.Machine
end

