-- ==== Sys2Proof/Machine/Cycle.lean ====
section
/-! DEFINITION. The status, and one clock cycle of the whole machine (40_pipeline.md R131, R143). Every stage reads the
state before the cycle only, so the new contents of each stage's output come from the clock cycle of the instruction
that the stage holds; EX's redirect is the one thing that ID and IF see within the cycle (R131, R138, R140). -/

namespace Sys2Proof.Machine

/-- The word in a stage, none for a Bubble. -/
def Latch.word {ρ : Type} (ir : ρ → Word) : Latch ρ → Option Word
  | .bubble => none
  | .record r => some (ir r)

/-- status(s) (R143): COMPLETE when PC maps to nothing and IF/ID, ID/EX, EX/MEM and MEM/WB are Bubbles. The WB record
plays no part. -/
def status (s : State) : Status :=
  if fetchWord s.program s.pc = none ∧ s.ifid = .bubble ∧ s.idex = .bubble ∧ s.exmem = .bubble ∧ s.memwb = .bubble
  then .complete
  else .running

/-- The clock cycle at `s` of the instruction that a stage holds: nothing is in flight when it holds a Bubble. -/
def inStage (word : Option Word) (s : State) : Host.Outcome State Fault Refusal :=
  match word with
  | none => .next (idleCycle s)
  | some w => exec (decode w) s

/-- One clock cycle (R131): RF and the WB record from the instruction in MEM/WB, MEM/WB and DMEM from the one in
EX/MEM, EX/MEM from the one in ID/EX, ID/EX from the one in IF/ID, IF/ID and PC from the one fetched; ID and IF under
the freeze of a taken branch (R138, R140). -/
def clockCycle (s : State) : Host.Outcome State Fault Refusal :=
  andThen (inStage (s.memwb.word MemWb.ir) s) fun wb =>
  andThen (inStage (s.exmem.word ExMem.ir) s) fun mem =>
  andThen (inStage (s.idex.word IdEx.ir) s) fun ex =>
  andThen (inStage (s.ifid.word IfId.ir) s) fun id =>
  andThen (inStage (fetchWord s.program s.pc) s) fun fetched =>
  .next
    { rf := wb.rf
      dmem := mem.dmem
      pc := (redirectFetch (redirect ex.exmem) (fetched.ifid, fetched.pc)).2
      ifid := (redirectFetch (redirect ex.exmem) (fetched.ifid, fetched.pc)).1
      idex := squashDecode (redirect ex.exmem) id.idex
      exmem := ex.exmem
      memwb := mem.memwb
      wbr := wb.wbr
      cycle := s.cycle + 1
      program := s.program }

/-- `step()` (R131, R132, R148): nothing changes when COMPLETE. -/
def stepCore (s : State) : Host.Outcome State Fault Refusal :=
  match status s with
  | .complete => .next s
  | .running => clockCycle s

/-- Whether EX finds a taken branch in this cycle, so that nothing is fetched (R140). -/
def branchTakenIn (s : State) : Bool :=
  match inStage (s.idex.word IdEx.ir) s with
  | .next t => (redirect t.exmem).isSome
  | .fault _ => false
  | .refused _ => false

/-- The state with the word `w` where the next cycle fetches: at PC, or at PROG_START with PC set to it where PC is no
address of ProgramMemory; and with an empty EX where a taken branch would suppress the fetch (R139, R140). -/
def withFetched (s : State) (w : Word) : State :=
  let pc := if programAddress s.pc.toNat then s.pc else Config.progStart
  { s with
    pc := pc
    program := installWord pc.toNat w s.program
    idex := if branchTakenIn s then .bubble else s.idex }

end Sys2Proof.Machine
end

