-- ==== Sys2Proof/Machine/Step.lean ====
section
/-! DEFINITION. The step, one clock cycle, and where a test places the next instruction. -/

namespace Sys2Proof.Machine

/-- One clock cycle of the core (40_pipeline.md R131, R132). -/
def step (s : State) : Host.Outcome State Fault Refusal := stepCore s

/-- The state with the instruction of `nbits` bits `w` where the next cycle fetches (entry 18). -/
def State.withFetchWord (s : State) (nbits w : Nat) : State :=
  withFetched s (BitVec.ofNat 32 (w % 2 ^ nbits))

end Sys2Proof.Machine
end

