-- ==== Sys2Proof/Machine/Assembler.lean ====
section
/-! DEFINITION. The two-pass assembler (44_assembler.md R240 to R268): from source lines to ProgramMemory or the first
error. A line is a list of characters. -/

namespace Sys2Proof.Machine

/-- An EncodingError (R266): the 1-based line and the failure, which decides the kind and the message. -/
structure EncodingError where
  line : Nat
  failure : AsmFailure
  deriving DecidableEq, Repr

/-- SyntaxError or RangeError (R266). -/
def EncodingError.kind (e : EncodingError) : ErrorKind := e.failure.kind

/-- The message: any text (R266, I11). -/
def EncodingError.message (e : EncodingError) : String := Config.messageText e.failure

/-- The eight mnemonics (R244). -/
inductive Mnemonic where
  | and
  | or
  | ori
  | lw
  | sw
  | blt
  | bge
  | word
  deriving DecidableEq, Repr

/-- A label name and its address (R246). -/
abbrev LabelTable := List (List Char × Nat)

/-- A line with an instruction part, after pass 1: its number, its address and that part. -/
structure PlacedLine where
  line : Nat
  address : Nat
  text : List Char
  deriving DecidableEq, Repr

/-! ### Text (R241 to R243) -/

/-- A blank is a space or a horizontal tab (R241). -/
def isBlank (c : Char) : Bool := c == ' ' || c == '\t'

/-- Remove blanks from both ends. -/
def trim (cs : List Char) : List Char :=
  ((cs.dropWhile isBlank).reverse.dropWhile isBlank).reverse

/-- Remove the comment: the first `#` and everything after it (R241). -/
def stripComment (cs : List Char) : List Char := cs.takeWhile (fun c => c != '#')

/-- A character that may begin a label name (R242). -/
def isNameStart (c : Char) : Bool := c.isAlpha || c == '_'

/-- A character that may stand in a label name (R242). -/
def isNameChar (c : Char) : Bool := c.isAlphanum || c == '_'

/-- The label-name grammar (R242). -/
def isName (cs : List Char) : Bool :=
  match cs with
  | [] => false
  | c :: rest => isNameStart c && rest.all isNameChar

/-- A line without its comment, as its label, if any, and its instruction part (R241, R242). -/
def splitLabel (cs : List Char) : Except AsmFailure (Option (List Char) × List Char) :=
  let body := trim (stripComment cs)
  if body.contains ':' then
    let name := trim (body.takeWhile (fun c => c != ':'))
    if isName name then .ok (some name, trim ((body.dropWhile (fun c => c != ':')).drop 1))
    else .error .malformedLabel
  else .ok (none, body)

/-- Split at every comma. -/
def splitCommas : List Char → List (List Char)
  | [] => [[]]
  | c :: cs =>
    match splitCommas cs with
    | [] => [[c]]
    | first :: rest => if c == ',' then [] :: first :: rest else (c :: first) :: rest

/-- The operands of an operand text, blanks removed; none where there is no text (R243). -/
def operandsOf (cs : List Char) : List (List Char) :=
  if (trim cs).isEmpty then [] else (splitCommas cs).map trim

/-- The mnemonic of a spelling, without regard to letter case (R244). -/
def mnemonicOf (cs : List Char) : Option Mnemonic :=
  let up := cs.map Char.toUpper
  if up = ['A', 'N', 'D'] then some .and
  else if up = ['O', 'R'] then some .or
  else if up = ['O', 'R', 'I'] then some .ori
  else if up = ['L', 'W'] then some .lw
  else if up = ['S', 'W'] then some .sw
  else if up = ['B', 'L', 'T'] then some .blt
  else if up = ['B', 'G', 'E'] then some .bge
  else if up = ['.', 'W', 'O', 'R', 'D'] then some .word
  else none

/-! ### Numbers and registers (R248, R249) -/

/-- A decimal digit's value. -/
def decDigit (c : Char) : Option Nat := if c.isDigit then some (c.toNat - 48) else none

/-- A hex digit's value. -/
def hexDigit (c : Char) : Option Nat :=
  if c.isDigit then some (c.toNat - 48)
  else if 'a'.toNat ≤ c.toNat ∧ c.toNat ≤ 'f'.toNat then some (c.toNat - 87)
  else if 'A'.toNat ≤ c.toNat ∧ c.toNat ≤ 'F'.toNat then some (c.toNat - 55)
  else none

/-- Read the remaining digits of a number. -/
def digitsFrom (digit : Char → Option Nat) (base acc : Nat) : List Char → Option Nat
  | [] => some acc
  | c :: cs =>
    match digit c with
    | some d => digitsFrom digit base (acc * base + d) cs
    | none => none

/-- One or more digits. -/
def numeral (digit : Char → Option Nat) (base : Nat) (cs : List Char) : Option Nat :=
  if cs.isEmpty then none else digitsFrom digit base 0 cs

/-- The immediate grammar (R249): decimal with an optional minus sign, or hex without a sign. -/
def parseImmediate (cs : List Char) : Option Int :=
  match cs with
  | '-' :: digits => (numeral decDigit 10 digits).map (fun n => -(n : Int))
  | '0' :: 'x' :: digits => (numeral hexDigit 16 digits).map (fun n => (n : Int))
  | '0' :: 'X' :: digits => (numeral hexDigit 16 digits).map (fun n => (n : Int))
  | digits => (numeral decDigit 10 digits).map (fun n => (n : Int))

/-- The register grammar (R248): a lower-case x and 0 to 31 without a leading zero. -/
def parseRegister (cs : List Char) : Option RegNum :=
  match cs with
  | 'x' :: digits =>
    match numeral decDigit 10 digits with
    | some n => if n < 32 ∧ (digits.length = 1 ∨ digits.head? ≠ some '0') then some (BitVec.ofNat 5 n) else none
    | none => none
  | _ => none

/-- The memory operand `imm ( reg )`, blanks allowed around the parentheses (R253, R254). -/
def parseMemory (cs : List Char) : Option (Int × RegNum) :=
  match ((cs.dropWhile (fun c => c != '(')).drop 1).reverse with
  | ')' :: inside =>
    match parseImmediate (trim (cs.takeWhile (fun c => c != '('))), parseRegister (trim inside.reverse) with
    | some imm, some reg => some (imm, reg)
    | _, _ => none
  | _ => none

/-! ### Operands: syntax, then range, then label resolution (R261) -/

/-- An operand is not empty (R243). -/
def nonEmpty (cs : List Char) : Except AsmFailure (List Char) :=
  if cs.isEmpty then .error .malformedOperand else .ok cs

/-- What a grammar reads, or the failure. -/
def orFail {α : Type} (failure : AsmFailure) (r : Option α) : Except AsmFailure α :=
  match r with
  | some x => .ok x
  | none => .error failure

/-- A register operand (R248). -/
def registerOperand (cs : List Char) : Except AsmFailure RegNum := do
  orFail .malformedRegister (parseRegister (← nonEmpty cs))

/-- A value in its range (R250). -/
def inRange (lo hi v : Int) : Except AsmFailure Int :=
  if lo ≤ v ∧ v ≤ hi then .ok v else .error .outOfRangeImmediate

/-- The 12-bit field of a signed immediate (R105, R250). -/
def field12 (v : Int) : Except AsmFailure (BitVec 12) := do
  return BitVec.ofInt 12 (← inRange (-2048) 2047 v)

/-- ORI's immediate (R252). -/
def immediateOperand (cs : List Char) : Except AsmFailure (BitVec 12) := do
  field12 (← orFail .malformedImmediate (parseImmediate (← nonEmpty cs)))

/-- SW's memory operand (R254). -/
def storeOperand (cs : List Char) : Except AsmFailure (BitVec 12 × RegNum) := do
  let (imm, reg) ← orFail .malformedOffset (parseMemory (← nonEmpty cs))
  return (← field12 imm, reg)

/-- LW's memory operand: a bare immediate has base x0 (R253). -/
def loadOperand (cs : List Char) : Except AsmFailure (BitVec 12 × RegNum) := do
  match parseImmediate (← nonEmpty cs) with
  | some imm => return (← field12 imm, 0#5)
  | none => storeOperand cs

/-- The 13-bit field of a branch offset: in range and even (R250, R256). -/
def offsetField (v : Int) : Except AsmFailure (BitVec 13) := do
  let v ← inRange (-4096) 4094 v
  if v % 2 = 0 then return BitVec.ofInt 13 v else .error .oddOffset

/-- A label's address. -/
def lookupLabel (labels : LabelTable) (name : List Char) : Option Nat :=
  (labels.find? (fun entry => entry.1 == name)).map (·.2)

/-- A branch's third operand: a byte offset, or a label, whose offset is its address less this line's (R255, R256,
R258). -/
def branchOperand (labels : LabelTable) (address : Nat) (cs : List Char) : Except AsmFailure (BitVec 13) := do
  match parseImmediate (← nonEmpty cs) with
  | some v => offsetField v
  | none =>
    if isName cs then
      offsetField ((← orFail .unresolvedLabel (lookupLabel labels cs) : Nat) - (address : Int))
    else .error .malformedOffset

/-- `.WORD`'s operand, taken modulo 2^32 (R257). -/
def wordOperand (cs : List Char) : Except AsmFailure Word := do
  let v ← orFail .malformedImmediate (parseImmediate (← nonEmpty cs))
  return BitVec.ofInt 32 (← inRange (-2147483648) 4294967295 v)

/-! ### Pass 2 of one line (R251 to R257, R261) -/

/-- The instruction of a mnemonic and its operands, checked from left to right after their count (R245, R261). -/
def assembleOperands (labels : LabelTable) (address : Nat) (m : Mnemonic) (ops : List (List Char)) :
    Except AsmFailure Instr :=
  match m, ops with
  | .and, [rd, rs1, rs2] => do
    return .and (← registerOperand rd) (← registerOperand rs1) (← registerOperand rs2) 0#7
  | .or, [rd, rs1, rs2] => do
    return .or (← registerOperand rd) (← registerOperand rs1) (← registerOperand rs2) 0#7
  | .ori, [rd, rs1, imm] => do
    return .ori (← registerOperand rd) (← registerOperand rs1) (← immediateOperand imm)
  | .lw, [rd, mem] => do
    let rd ← registerOperand rd
    let (imm, rs1) ← loadOperand mem
    return .lw rd rs1 imm
  | .sw, [rs2, mem] => do
    let rs2 ← registerOperand rs2
    let (imm, rs1) ← storeOperand mem
    return .sw rs2 rs1 imm
  | .blt, [rs1, rs2, target] => do
    return .blt (← registerOperand rs1) (← registerOperand rs2) (← branchOperand labels address target)
  | .bge, [rs1, rs2, target] => do
    return .bge (← registerOperand rs1) (← registerOperand rs2) (← branchOperand labels address target)
  | .word, [v] => do
    return .word (← wordOperand v)
  | _, _ => .error .wrongOperandCount

/-- The instruction of an instruction part: the mnemonic up to the first blank, then its operands (R243, R244). -/
def assemblePart (labels : LabelTable) (address : Nat) (cs : List Char) : Except AsmFailure Instr := do
  let m ← orFail .unsupportedMnemonic (mnemonicOf (cs.takeWhile (fun c => !isBlank c)))
  assembleOperands labels address m (operandsOf (cs.dropWhile (fun c => !isBlank c)))

/-! ### The two passes (R246, R247, R259, R261, R262) -/

/-- Add a line's label (R246); a second definition of a name is an error (R247). -/
def defineLabel (labels : LabelTable) (label : Option (List Char)) (address : Nat) :
    Except AsmFailure LabelTable :=
  match label with
  | none => .ok labels
  | some name =>
    if (lookupLabel labels name).isSome then .error .duplicateLabel else .ok (labels ++ [(name, address)])

/-- Pass 1 from line number `n` at address `pc`: the label table and the placed lines (R246, R259). -/
def passOne (n pc : Nat) (labels : LabelTable) :
    List (List Char) → Except EncodingError (LabelTable × List PlacedLine)
  | [] => .ok (labels, [])
  | l :: ls =>
    match splitLabel l with
    | .error f => .error ⟨n, f⟩
    | .ok (label, part) =>
      match defineLabel labels label pc with
      | .error f => .error ⟨n, f⟩
      | .ok labels' =>
        if part.isEmpty then passOne (n + 1) pc labels' ls
        else if Config.progEnd.toNat ≤ pc then .error ⟨n, .programTooLong⟩
        else
          match passOne (n + 1) (pc + 4) labels' ls with
          | .error e => .error e
          | .ok (table, placed) => .ok (table, ⟨n, pc, part⟩ :: placed)

/-- Pass 2: the words of the placed lines (R262). -/
def passTwo (labels : LabelTable) : List PlacedLine → Except EncodingError Program
  | [] => .ok []
  | p :: ps =>
    match assemblePart labels p.address p.text with
    | .error f => .error ⟨p.line, f⟩
    | .ok i =>
      match passTwo labels ps with
      | .error e => .error e
      | .ok program => .ok ((p.address, encode i) :: program)

/-- `assemble(lines)` as a pure function (R240): lines are numbered from 1 and the start address is PROG_START
(R267). -/
def assemble (lines : List (List Char)) : Except EncodingError Program :=
  match passOne 1 Config.progStart.toNat [] lines with
  | .error e => .error e
  | .ok (labels, placed) => passTwo labels placed

/-- The same from strings. -/
def assembleText (lines : List String) : Except EncodingError Program := assemble (lines.map String.toList)

end Sys2Proof.Machine
end

