-- ==== Sys2Proof/Machine/HostOps.lean ====
section
/-! DEFINITION. The host's operations (40_pipeline.md R147 to R152), each between two clock cycles. -/

namespace Sys2Proof.Machine

/-- What the host sees after `step` or `run` (10_state.md R38, D27). -/
structure Snapshot where
  ifid : Latch IfId
  idex : Latch IdEx
  exmem : Latch ExMem
  memwb : Latch MemWb
  wbr : Latch WbRec
  pc : Word
  cycle : Nat
  status : Status
  deriving DecidableEq, Repr

/-- The snapshot of a state (R38). -/
def snapshot (s : State) : Snapshot where
  ifid := s.ifid
  idex := s.idex
  exmem := s.exmem
  memwb := s.memwb
  wbr := s.wbr
  pc := s.pc
  cycle := s.cycle
  status := status s

/-- `reset()`: every element at its reset value, ProgramMemory kept (70_reset_and_hazards.md R320, R321). -/
def hostReset (s : State) : State := { State.reset with program := s.program }

/-- `assemble(lines)`: install the program, or the empty one on an error; nothing else changes (44_assembler.md R263,
R264). -/
def hostAssemble (lines : List (List Char)) (s : State) : State :=
  match assemble lines with
  | .ok program => { s with program := program }
  | .error _ => { s with program := [] }

/-- `run(maxCycles)` (40_pipeline.md R149): step until COMPLETE or the cap. -/
def hostRun : Nat → State → Host.Outcome State Fault Refusal
  | 0, s => .next s
  | n + 1, s =>
    match status s with
    | .complete => .next s
    | .running => andThen (step s) (hostRun n)

/-- The exceeded-cap flag of the state that `run` ends in (R149). -/
def exceededCap (s : State) : Bool := decide (status s = .running)

/-- `peekRegister(i)` (R150): refused outside 0 to 31. -/
def peekRegister (index : Int) (s : State) : Host.Outcome Word Fault Refusal :=
  if 0 ≤ index ∧ index < 32 then .next (readReg s.rf (BitVec.ofInt 5 index)) else .refused (.noSuchRegister index)

/-- `peekMemoryWord(addr)` (20_memory.md R71). -/
def peekMemoryWord (addr : Word) (s : State) : Word := memRead s.dmem addr

/-- `pokeMemoryWord(addr, value)` (R71). -/
def pokeMemoryWord (addr value : Word) (s : State) : State := { s with dmem := memWrite s.dmem addr value }

/-- The operations the host can invoke, and no other (40_pipeline.md R147, R151). -/
inductive HostOp where
  | assemble (lines : List (List Char))
  | reset
  | step
  | run (maxCycles : Nat)
  | peekRegister (index : Int)
  | peekMemoryWord (addr : Word)
  | pokeMemoryWord (addr value : Word)
  deriving DecidableEq, Repr

/-- What an operation returns. -/
inductive HostReply where
  | assembled (result : Except EncodingError Program)
  | done
  | snapshot (after : Snapshot)
  | ran (after : Snapshot) (exceededCap : Bool)
  | word (value : Word)

/-- One host operation: the state after it and what it returns (R147 to R150). -/
def hostDo (op : HostOp) (s : State) : Host.Outcome (State × HostReply) Fault Refusal :=
  match op with
  | .assemble lines => .next (hostAssemble lines s, .assembled (Sys2Proof.Machine.assemble lines))
  | .reset => .next (hostReset s, .done)
  | .step => andThen (Sys2Proof.Machine.step s) fun t => .next (t, .snapshot (snapshot t))
  | .run maxCycles => andThen (hostRun maxCycles s) fun t => .next (t, .ran (snapshot t) (exceededCap t))
  | .peekRegister index => andThen (Sys2Proof.Machine.peekRegister index s) fun v => .next (s, .word v)
  | .peekMemoryWord addr => .next (s, .word (Sys2Proof.Machine.peekMemoryWord addr s))
  | .pokeMemoryWord addr value => .next (Sys2Proof.Machine.pokeMemoryWord addr value s, .done)

/-- A sequence of pokes, in order. -/
def pokeAll (pokes : List (Word × Word)) (s : State) : State :=
  pokes.foldl (fun t poke => pokeMemoryWord poke.1 poke.2 t) s

/-- The launch state of R322 and R323: assemble, reset, pokes. -/
def launch (lines : List (List Char)) (pokes : List (Word × Word)) (s : State) : State :=
  pokeAll pokes (hostReset (hostAssemble lines s))

/-- `run()` with the default cap (R149, D8). -/
def hostRunDefault (s : State) : Host.Outcome State Fault Refusal := hostRun Config.runCap s

end Sys2Proof.Machine
end

