-- ==== Sys2Proof/Machine/Reference.lean ====
section
/-! DEFINITION. The clock cycle as 40_pipeline.md R131 to R143 writes it: five stage functions that look at the class
of a word, composed once. The step does not use this file: it takes each stage from the instruction the stage holds
(Machine/Cycle.lean). The statements say that the two are the same machine. -/

namespace Sys2Proof.Machine

/-- ExecRule_c(A, B, IMM, PC) of R135, for each class c: R180 to R182, R200, R201, R220, R221, R136. -/
def refExecRule (c : InstrClass) (a b imm pc : Word) : Word × Bool :=
  match c with
  | .and => (a &&& b, false)
  | .or => (a ||| b, false)
  | .ori => (a ||| (imm &&& 0x00000FFF#32), false)
  | .lw => (a + imm, false)
  | .sw => (a + imm, false)
  | .blt => (pc + imm, decide (a.toInt < b.toInt))
  | .bge => (pc + imm, decide (a.toInt ≥ b.toInt))
  | .illegal => (0#32, false)

/-- The classes that write a register (R133). -/
def writesRegister (c : InstrClass) : Bool :=
  match c with
  | .and => true
  | .or => true
  | .ori => true
  | .lw => true
  | .sw => false
  | .blt => false
  | .bge => false
  | .illegal => false

/-- WB(m, RF) (R133). -/
def refWriteBack (m : Latch MemWb) (rf : RegFile) : RegFile × Latch WbRec :=
  match m with
  | .bubble => (rf, .bubble)
  | .record m =>
    let value := if classOf m.ir = .lw then m.lmd else m.aluOutput
    let we := writesRegister (classOf m.ir) && decide (rdOf m.ir ≠ 0#5)
    (if we then writeReg rf (rdOf m.ir) value else rf, .record ⟨m.ir, rdOf m.ir, value, we⟩)

/-- MEM(e, DMEM) (R134). -/
def refMemory (e : Latch ExMem) (dmem : Memory) : Latch MemWb × Memory :=
  match e with
  | .bubble => (.bubble, dmem)
  | .record e =>
    let lmd := if classOf e.ir = .lw then memRead dmem e.aluOutput else 0#32
    let dmem' := if classOf e.ir = .sw then memWrite dmem e.aluOutput e.b else dmem
    (.record ⟨e.ir, lmd, e.aluOutput⟩, dmem')

/-- EX(d) (R135): the EX/MEM record, taken, and the target. -/
def refExecute (d : Latch IdEx) : Latch ExMem × Bool × Word :=
  match d with
  | .bubble => (.bubble, false, 0#32)
  | .record d =>
    let out := refExecRule (classOf d.ir) d.a d.b d.imm d.pc
    (.record ⟨d.ir, out.1, d.b, out.2⟩, out.2, if out.2 then out.1 else 0#32)

/-- ID(f, RF) (R137). -/
def refDecode (f : Latch IfId) (rf : RegFile) : Latch IdEx :=
  match f with
  | .bubble => .bubble
  | .record f =>
    .record ⟨f.ir, f.npc, f.pc, readReg rf (rs1Of f.ir), readReg rf (rs2Of f.ir), immGen f.ir⟩

/-- IF(pc) (R139). -/
def refFetch (program : Program) (pc : Word) : Latch IfId × Word :=
  match fetchWord program pc with
  | some w => (.record ⟨w, pc + 4#32, pc⟩, pc + 4#32)
  | none => (.bubble, pc)

/-- step(s) (R131). -/
def refStep (s : State) : State :=
  if status s = .complete then s
  else
    let wb := refWriteBack s.memwb s.rf
    let mem := refMemory s.exmem s.dmem
    let ex := refExecute s.idex
    let fetched := if ex.2.1 then (.bubble, ex.2.2) else refFetch s.program s.pc
    { rf := wb.1
      dmem := mem.2
      pc := fetched.2
      ifid := fetched.1
      idex := if ex.2.1 then .bubble else refDecode s.ifid s.rf
      exmem := ex.1
      memwb := mem.1
      wbr := wb.2
      cycle := s.cycle + 1
      program := s.program }

end Sys2Proof.Machine
end

