-- ==== Sys2Proof/WellFormed.lean ====
section
/-! DEFINITION. Which terms of `Instr` stand for a word: register numbers and immediates are in range by their types;
what is left is that a branch offset is even (30_encoding.md R95, R98) and that a raw word is of class ILLEGAL, since
a word of another class is that class's instruction (44_assembler.md R257). -/

namespace Sys2Proof

/-- A byte offset whose bit 0 is 0, the only ones the B format can hold (30_encoding.md R95). -/
def evenOffset (offset : BitVec 13) : Bool := offset.getLsbD 0 == false

/-- The check on each instruction. -/
def Instr.wellFormed : Instr → Bool
  | .and _ _ _ _ => true
  | .or _ _ _ _ => true
  | .ori _ _ _ => true
  | .lw _ _ _ => true
  | .sw _ _ _ => true
  | .blt _ _ offset => evenOffset offset
  | .bge _ _ offset => evenOffset offset
  | .word v => classOf v == .illegal

end Sys2Proof
end

