-- ==== Sys2Proof/Safety.lean ====
section
/-! DEFINITION. The terms in which statements about the machine are written: what a run is, what is in flight, and the
invariant of the states that a run reaches. -/

namespace Sys2Proof.Machine

/-- `k` steps lead from `s` to `t`. -/
def Runs : Nat → State → State → Prop
  | 0, s, t => s = t
  | k + 1, s, t => ∃ u, step s = .next u ∧ Runs k u t

/-- Nothing is in flight: the four inter-stage pipeline registers are Bubbles. -/
def Drained (s : State) : Prop :=
  s.ifid = .bubble ∧ s.idex = .bubble ∧ s.exmem = .bubble ∧ s.memwb = .bubble

/-- PC maps to a word that decodes to `i`. -/
def FetchesNext (i : Instr) (s : State) : Prop := ∃ w, fetchWord s.program s.pc = some w ∧ decode w = i

/-- A stage holds a Bubble or a word that decodes to `i`. -/
def HoldsOnly {ρ : Type} (i : Instr) (ir : ρ → Word) (latch : Latch ρ) : Prop :=
  ∀ r, latch = .record r → decode (ir r) = i

/-- No instruction but `i` is in flight or about to be fetched. -/
def OnlyInFlight (i : Instr) (s : State) : Prop :=
  HoldsOnly i IfId.ir s.ifid ∧ HoldsOnly i IdEx.ir s.idex ∧ HoldsOnly i ExMem.ir s.exmem ∧
    HoldsOnly i MemWb.ir s.memwb ∧ ∀ w, fetchWord s.program s.pc = some w → decode w = i

/-- What IF and ID do with the instruction `i` in a clock cycle from `s` to `t`, the same for every instruction but
for the operands that Decode reads (40_pipeline.md R137 to R140): a taken branch in EX squashes both. -/
def FrontEnd (i : Instr) (a b imm : Word) (s t : State) : Prop :=
  (redirect t.exmem = none →
    (∀ f, s.ifid = .record f → decode f.ir = i → t.idex = .record ⟨f.ir, f.npc, f.pc, a, b, imm⟩) ∧
    (∀ w, fetchWord s.program s.pc = some w → decode w = i →
      t.ifid = .record ⟨w, s.pc + 4#32, s.pc⟩ ∧ t.pc = s.pc + 4#32)) ∧
  ∀ target, redirect t.exmem = some target → t.idex = .bubble ∧ t.ifid = .bubble ∧ t.pc = target

/-- The record in EX is a branch whose condition holds (43_branch.md R220, R221). -/
def Taken (d : IdEx) : Prop :=
  (classOf d.ir = .blt ∧ d.a.toInt < d.b.toInt) ∨ (classOf d.ir = .bge ∧ d.a.toInt ≥ d.b.toInt)

/-- A taken branch is in EX (40_pipeline.md R138). -/
def TakenIn (s : State) : Prop := ∃ d, s.idex = .record d ∧ Taken d

/-- The cycle at `s` writes the register `rd` back: MEM/WB holds a word of a class with a destination, which is `rd`
(40_pipeline.md R133). -/
def WritesBack (rd : RegNum) (s : State) : Prop :=
  ∃ m, s.memwb = .record m ∧ writesRegister (classOf m.ir) = true ∧ rdOf m.ir = rd

/-- A source line that takes an address: it has an instruction part (44_assembler.md R246). -/
def instructionBearing (l : List Char) : Bool :=
  match splitLabel l with
  | .ok (_, part) => !part.isEmpty
  | .error _ => false

/-- A word of a class that never branches. -/
def NoBranch (w : Word) : Prop := classOf w ≠ .blt ∧ classOf w ≠ .bge

/-- What a cycle leaves alone in which nothing is stored and no register other than `rd` is written: every byte, every
other register, the program; and the cycle counts. -/
def OnlyRegister (rd : RegNum) (s t : State) : Prop :=
  (∀ a, readByte t.dmem a = readByte s.dmem a) ∧ (∀ r, r ≠ rd → readReg t.rf r = readReg s.rf r) ∧
    t.program = s.program ∧ t.cycle = s.cycle + 1

/-- The invariant of the states that runs reach. -/
structure Invariant (s : State) : Prop where
  /-- RF[0] = 0 (10_state.md R22, 40_pipeline.md R145). -/
  x0 : s.rf[0] = 0#32
  /-- Data memory is in canonical form, inside DATA. -/
  dmem : s.dmem.wf
  /-- ProgramMemory has the form of 10_state.md R35. -/
  program : s.program.wf
  /-- PC is even (43_branch.md R224). -/
  pc : s.pc.getLsbD 0 = false
  /-- IF/ID holds a word of ProgramMemory, its address and that plus 4 (10_state.md R28). -/
  ifid : ∀ f, s.ifid = .record f → fetchWord s.program f.pc = some f.ir ∧ f.npc = f.pc + 4#32
  /-- ID/EX holds a word of ProgramMemory, its address, that plus 4, and its immediate (R29). -/
  idex : ∀ d, s.idex = .record d →
    fetchWord s.program d.pc = some d.ir ∧ d.npc = d.pc + 4#32 ∧ d.imm = immGen d.ir
  /-- EX/MEM has cond set only for a branch, whose target is even (R30, 43_branch.md R224). -/
  exmem : ∀ e, s.exmem = .record e → e.cond = true →
    (classOf e.ir = .blt ∨ classOf e.ir = .bge) ∧ e.aluOutput.getLsbD 0 = false
  /-- MEM/WB has a loaded word only for LW (R31, D10). -/
  memwb : ∀ m, s.memwb = .record m → classOf m.ir ≠ .lw → m.lmd = 0#32
  /-- The WB record tells the destination, whether it was written, and the value that it now holds (R32). -/
  wbr : ∀ r, s.wbr = .record r →
    r.rd = rdOf r.ir ∧ r.we = (writesRegister (classOf r.ir) && decide (r.rd ≠ 0#5)) ∧
      (r.we = true → readReg s.rf r.rd = r.value)

end Sys2Proof.Machine
end

