-- ==== Sys2Proof/Certificates/Slice0/Obligations.lean ====
section
/-! DEFINITION. The statements for the provers. `step s` is the clock cycle of the whole machine. `exec i s` is the clock
cycle at `s` in which `i` is the only instruction in flight: the model's choice, entry 4. -/

open Sys2Proof Sys2Proof.Machine

/-! ### Reset -/

/-- 70_reset_and_hazards.md R320, R321: reset puts every element of the state at its reset value and keeps the
program. -/
def Obligations.ResetGivesTheStatedValues : Prop :=
  ∀ s : State,
    (∀ i : Fin 32, (hostReset s).rf[i] = 0#32) ∧ (∀ r, readReg (hostReset s).rf r = 0#32) ∧
    (∀ a, readByte (hostReset s).dmem a = 0#8) ∧
    (hostReset s).ifid = .bubble ∧ (hostReset s).idex = .bubble ∧ (hostReset s).exmem = .bubble ∧
    (hostReset s).memwb = .bubble ∧ (hostReset s).wbr = .bubble ∧
    (hostReset s).pc = 0x80#32 ∧ (hostReset s).cycle = 0 ∧ (hostReset s).program = s.program

/-- The model's choice (entry 3): `State.reset` has the empty program; it is the host's reset of that program, it meets
the invariant, and it is COMPLETE. -/
def Obligations.ResetStateMeetsTheInvariant : Prop :=
  State.reset.program = [] ∧ (∀ s : State, s.program = [] → hostReset s = State.reset) ∧ Invariant State.reset ∧
    status State.reset = .complete

/-- 10_state.md R34: after reset the status is COMPLETE only when nothing is mapped at PROG_START. -/
def Obligations.StatusAfterReset : Prop :=
  ∀ s : State,
    (status (hostReset s) = .complete ↔ fetchWord s.program 0x80#32 = none) ∧
    (status (hostReset s) = .running ↔ fetchWord s.program 0x80#32 ≠ none)

/-- 70_reset_and_hazards.md R322: every launch state, whatever was in flight before, meets the invariant. -/
def Obligations.LaunchMeetsTheInvariant : Prop :=
  ∀ (lines : List (List Char)) (pokes : List (Word × Word)) (s : State), Invariant (launch lines pokes s)

/-! ### Encoding -/

/-- A few words of 95_test_vectors.md V-ENC, one of each family, decode to what they stand for. The words' opcode and
funct3 values are PRESUMED, entry 1. That the second AND, V-ENC-16, keeps its funct7 as an operand is the model's choice,
entry 5: the spec says that funct7 is ignored. That the last word, of class ILLEGAL, is a raw word is entry 6. -/
def Obligations.SampleWordsDecode : Prop :=
  decode 0x0020F1B3#32 = .and 3#5 1#5 2#5 0#7 ∧ decode 0x4020F1B3#32 = .and 3#5 1#5 2#5 0b0100000#7 ∧
  decode 0x0020E1B3#32 = .or 3#5 1#5 2#5 0#7 ∧ decode 0xFFF06093#32 = .ori 1#5 0#5 0xFFF#12 ∧
  decode 0xFFC12083#32 = .lw 1#5 2#5 0xFFC#12 ∧ decode 0x80312023#32 = .sw 3#5 2#5 0x800#12 ∧
  decode 0x8020C063#32 = .blt 1#5 2#5 0x1000#13 ∧ decode 0x7E41DFE3#32 = .bge 3#5 4#5 0x0FFE#13 ∧
  decode 0x00000073#32 = .word 0x00000073#32

/-- 30_encoding.md R105, R106: decoding the word of a well-formed instruction gives the instruction, for every value of
every operand. That funct7 of AND and OR is an operand (the spec: written 0, ignored) and that a raw word is well-formed
only in class ILLEGAL are the model's choices, entries 5 and 6. -/
def Obligations.DecodeOfEncode : Prop :=
  ∀ i : Instr, i.wellFormed = true → decode (encode i) = i

/-- 30_encoding.md R91, R93 to R95, R103: every word is the encoding of exactly what it decodes to, which is
well-formed. That no bit is dropped is the model's choice where the spec drops some: by R92 and R102 the encoder writes
funct7 of AND and OR 0 and the decoder ignores it, and the model keeps it as an operand (entry 5). That a decoded raw word
is well-formed rests on entry 6. -/
def Obligations.EncodeOfDecode : Prop :=
  ∀ w : Word, encode (decode w) = w ∧ (decode w).wellFormed = true

/-- 30_encoding.md R106: the operands that the assembler accepts survive encoding and decoding, immediates read as
signed integers. -/
def Obligations.OperandsSurviveEncoding : Prop :=
  (∀ rd rs1 rs2 : RegNum,
    (classOf (encode (.and rd rs1 rs2 0#7)) = .and ∧ rdOf (encode (.and rd rs1 rs2 0#7)) = rd ∧
      rs1Of (encode (.and rd rs1 rs2 0#7)) = rs1 ∧ rs2Of (encode (.and rd rs1 rs2 0#7)) = rs2) ∧
    (classOf (encode (.or rd rs1 rs2 0#7)) = .or ∧ rdOf (encode (.or rd rs1 rs2 0#7)) = rd ∧
      rs1Of (encode (.or rd rs1 rs2 0#7)) = rs1 ∧ rs2Of (encode (.or rd rs1 rs2 0#7)) = rs2)) ∧
  (∀ (ra rb : RegNum) (v : Int), -2048 ≤ v → v ≤ 2047 →
    (classOf (encode (.ori ra rb (BitVec.ofInt 12 v))) = .ori ∧ rdOf (encode (.ori ra rb (BitVec.ofInt 12 v))) = ra ∧
      rs1Of (encode (.ori ra rb (BitVec.ofInt 12 v))) = rb ∧
      (immGen (encode (.ori ra rb (BitVec.ofInt 12 v)))).toInt = v) ∧
    (classOf (encode (.lw ra rb (BitVec.ofInt 12 v))) = .lw ∧ rdOf (encode (.lw ra rb (BitVec.ofInt 12 v))) = ra ∧
      rs1Of (encode (.lw ra rb (BitVec.ofInt 12 v))) = rb ∧
      (immGen (encode (.lw ra rb (BitVec.ofInt 12 v)))).toInt = v) ∧
    (classOf (encode (.sw ra rb (BitVec.ofInt 12 v))) = .sw ∧ rs2Of (encode (.sw ra rb (BitVec.ofInt 12 v))) = ra ∧
      rs1Of (encode (.sw ra rb (BitVec.ofInt 12 v))) = rb ∧
      (immGen (encode (.sw ra rb (BitVec.ofInt 12 v)))).toInt = v)) ∧
  (∀ (rs1 rs2 : RegNum) (v : Int), -4096 ≤ v → v ≤ 4094 → v % 2 = 0 →
    (classOf (encode (.blt rs1 rs2 (BitVec.ofInt 13 v))) = .blt ∧
      rs1Of (encode (.blt rs1 rs2 (BitVec.ofInt 13 v))) = rs1 ∧
      rs2Of (encode (.blt rs1 rs2 (BitVec.ofInt 13 v))) = rs2 ∧
      (immGen (encode (.blt rs1 rs2 (BitVec.ofInt 13 v)))).toInt = v) ∧
    (classOf (encode (.bge rs1 rs2 (BitVec.ofInt 13 v))) = .bge ∧
      rs1Of (encode (.bge rs1 rs2 (BitVec.ofInt 13 v))) = rs1 ∧
      rs2Of (encode (.bge rs1 rs2 (BitVec.ofInt 13 v))) = rs2 ∧
      (immGen (encode (.bge rs1 rs2 (BitVec.ofInt 13 v)))).toInt = v))

/-- 30_encoding.md R102: the class of a word is the one row of the opcode map that it matches, ILLEGAL when it matches
none; only opcode and funct3 are tested. -/
def Obligations.ClassIsTheOneMatchingRow : Prop :=
  (∀ w : Word, ∀ row ∈ opcodeMap, classOf w = row.cls ↔ w &&& row.mask = row.value) ∧
  (∀ w : Word, classOf w = .illegal ↔ ∀ row ∈ opcodeMap, w &&& row.mask ≠ row.value) ∧
  (∀ v w : Word, opcodeOf v = opcodeOf w → funct3Of v = funct3Of w → classOf v = classOf w)

/-- 30_encoding.md R98: the immediate of a word with the B-format opcode is the 13 bits with bit 0 clear,
sign-extended: even, from -4096 to 4094. The value of that opcode is PRESUMED, entry 1. -/
def Obligations.BranchImmediateIsEvenAndInRange : Prop :=
  ∀ w : Word, opcodeOf w = 0b1100011#7 →
    immGen w = (w.extractLsb' 31 1 ++ w.extractLsb' 7 1 ++ w.extractLsb' 25 6 ++ w.extractLsb' 8 4 ++ 0#1).signExtend 32 ∧
      (immGen w).toInt % 2 = 0 ∧ -4096 ≤ (immGen w).toInt ∧ (immGen w).toInt ≤ 4094

/-! ### The step -/

/-- In a running machine each stage's output is that of `exec` of the instruction it holds; a taken branch in EX squashes
ID and IF; an empty stage puts out a Bubble. That each stage acts on the word it holds, all in one cycle, is 40_pipeline.md
R130, R131; that `exec` is a clock cycle with one instruction in flight, from which the stages' outputs are taken, is the
model's choice, entry 4. -/
def Obligations.StepRunsTheInstructionInEachStage : Prop :=
  ∀ s : State, status s = .running → ∃ t, step s = .next t ∧
    (∀ m, s.memwb = .record m → ∃ u, exec (decode m.ir) s = .next u ∧ t.rf = u.rf ∧ t.wbr = u.wbr) ∧
    (s.memwb = .bubble → t.rf = s.rf ∧ t.wbr = .bubble) ∧
    (∀ e, s.exmem = .record e → ∃ u, exec (decode e.ir) s = .next u ∧ t.memwb = u.memwb ∧ t.dmem = u.dmem) ∧
    (s.exmem = .bubble → t.memwb = .bubble ∧ t.dmem = s.dmem) ∧
    (∀ d, s.idex = .record d → ∃ u, exec (decode d.ir) s = .next u ∧ t.exmem = u.exmem) ∧
    (s.idex = .bubble → t.exmem = .bubble) ∧
    (redirect t.exmem = none →
      (∀ f, s.ifid = .record f → ∃ u, exec (decode f.ir) s = .next u ∧ t.idex = u.idex) ∧
      (s.ifid = .bubble → t.idex = .bubble) ∧
      (∀ w, fetchWord s.program s.pc = some w → ∃ u, exec (decode w) s = .next u ∧ t.ifid = u.ifid ∧ t.pc = u.pc) ∧
      (fetchWord s.program s.pc = none → t.ifid = .bubble ∧ t.pc = s.pc)) ∧
    (∀ target, redirect t.exmem = some target → t.idex = .bubble ∧ t.ifid = .bubble ∧ t.pc = target) ∧
    t.cycle = s.cycle + 1 ∧ t.program = s.program

/-- A running machine in which `i` is the only instruction in flight and the only one that may be fetched does exactly
`exec i`; so the first cycle after reset of a program that begins with `i` is `exec i`. That `exec i` is this cycle is the
model's choice, entry 4. -/
def Obligations.StepOfALoneInstructionIsExec : Prop :=
  ∀ (i : Instr) (s : State), status s = .running → OnlyInFlight i s → step s = exec i s

/-- 40_pipeline.md R131 to R139, R142: the step is the spec's own clock cycle, stage function by stage function. -/
def Obligations.StepIsTheSpecsClockCycle : Prop :=
  ∀ s : State, step s = .next (refStep s)

/-- 40_pipeline.md R132: a step of a COMPLETE machine changes nothing. -/
def Obligations.StepWhenCompleteChangesNothing : Prop :=
  ∀ s : State, status s = .complete → step s = .next s

/-- 40_pipeline.md R148: the host's step cannot fail; it does the step once and returns the snapshot. -/
def Obligations.HostStepCannotFail : Prop :=
  ∀ s : State, ∃ t, step s = .next t ∧ t = refStep s ∧ hostDo .step s = .next (t, .snapshot (snapshot t))

/-- 40_pipeline.md R142: each step that is not the no-op counts one cycle. -/
def Obligations.CycleCounterCountsSteps : Prop :=
  ∀ s t : State, step s = .next t →
    (status s = .running → t.cycle = s.cycle + 1) ∧ (status s = .complete → t.cycle = s.cycle)

/-- 40_pipeline.md R145: over a cycle the words move one stage on, in order, and none is lost but by a taken branch. -/
def Obligations.WordsMoveOneStageOn : Prop :=
  ∀ s t : State, status s = .running → step s = .next t →
    t.wbr.word WbRec.ir = s.memwb.word MemWb.ir ∧ t.memwb.word MemWb.ir = s.exmem.word ExMem.ir ∧
    t.exmem.word ExMem.ir = s.idex.word IdEx.ir ∧
    (¬TakenIn s → t.idex.word IdEx.ir = s.ifid.word IfId.ir ∧ t.ifid.word IfId.ir = fetchWord s.program s.pc) ∧
    (TakenIn s → t.idex = .bubble ∧ t.ifid = .bubble)

/-- The invariant of Safety.lean is kept by every step. -/
def Obligations.EveryStepKeepsTheInvariant : Prop :=
  ∀ s t : State, Invariant s → step s = .next t → Invariant t

/-- No number of steps changes ProgramMemory: 10_state.md R35, 20_memory.md R76. -/
def Obligations.StepsKeepTheProgram : Prop :=
  ∀ (n : Nat) (s t : State), Runs n s t → t.program = s.program

/-! ### Each instruction, stage by stage: the clock cycle `exec i` (the model's choice, entry 4) -/

/-- 41_logical.md R180, AND: every stage of its clock cycle, and what the cycle leaves alone. -/
def Obligations.AndCompletesInEveryStage : Prop :=
  ∀ (rd rs1 rs2 : RegNum) (funct7 : BitVec 7) (s : State), ∃ t, exec (.and rd rs1 rs2 funct7) s = .next t ∧
    FrontEnd (.and rd rs1 rs2 funct7) (readReg s.rf rs1) (readReg s.rf rs2) 0#32 s t ∧
    (∀ d, s.idex = .record d → decode d.ir = .and rd rs1 rs2 funct7 →
      t.exmem = .record ⟨d.ir, d.a &&& d.b, d.b, false⟩) ∧
    (∀ e, s.exmem = .record e → decode e.ir = .and rd rs1 rs2 funct7 →
      t.memwb = .record ⟨e.ir, 0#32, e.aluOutput⟩) ∧
    (∀ m, s.memwb = .record m → decode m.ir = .and rd rs1 rs2 funct7 →
      t.wbr = .record ⟨m.ir, rd, m.aluOutput, decide (rd ≠ 0#5)⟩ ∧
        readReg t.rf rd = if rd = 0#5 then 0#32 else m.aluOutput) ∧
    ((∀ m, s.memwb = .record m → decode m.ir ≠ .and rd rs1 rs2 funct7) → t.rf = s.rf) ∧
    OnlyRegister rd s t

/-- 41_logical.md R181, OR. -/
def Obligations.OrCompletesInEveryStage : Prop :=
  ∀ (rd rs1 rs2 : RegNum) (funct7 : BitVec 7) (s : State), ∃ t, exec (.or rd rs1 rs2 funct7) s = .next t ∧
    FrontEnd (.or rd rs1 rs2 funct7) (readReg s.rf rs1) (readReg s.rf rs2) 0#32 s t ∧
    (∀ d, s.idex = .record d → decode d.ir = .or rd rs1 rs2 funct7 →
      t.exmem = .record ⟨d.ir, d.a ||| d.b, d.b, false⟩) ∧
    (∀ e, s.exmem = .record e → decode e.ir = .or rd rs1 rs2 funct7 →
      t.memwb = .record ⟨e.ir, 0#32, e.aluOutput⟩) ∧
    (∀ m, s.memwb = .record m → decode m.ir = .or rd rs1 rs2 funct7 →
      t.wbr = .record ⟨m.ir, rd, m.aluOutput, decide (rd ≠ 0#5)⟩ ∧
        readReg t.rf rd = if rd = 0#5 then 0#32 else m.aluOutput) ∧
    ((∀ m, s.memwb = .record m → decode m.ir ≠ .or rd rs1 rs2 funct7) → t.rf = s.rf) ∧
    OnlyRegister rd s t

/-- 41_logical.md R182, ORI: the low 12 bits of IMM, zero-extended. -/
def Obligations.OriCompletesInEveryStage : Prop :=
  ∀ (rd rs1 : RegNum) (imm : BitVec 12) (s : State), ∃ t, exec (.ori rd rs1 imm) s = .next t ∧
    FrontEnd (.ori rd rs1 imm) (readReg s.rf rs1) (readReg s.rf (imm.extractLsb' 0 5)) (imm.signExtend 32) s t ∧
    (∀ d, s.idex = .record d → decode d.ir = .ori rd rs1 imm →
      t.exmem = .record ⟨d.ir, d.a ||| (d.imm &&& 0x00000FFF#32), d.b, false⟩) ∧
    (∀ e, s.exmem = .record e → decode e.ir = .ori rd rs1 imm →
      t.memwb = .record ⟨e.ir, 0#32, e.aluOutput⟩) ∧
    (∀ m, s.memwb = .record m → decode m.ir = .ori rd rs1 imm →
      t.wbr = .record ⟨m.ir, rd, m.aluOutput, decide (rd ≠ 0#5)⟩ ∧
        readReg t.rf rd = if rd = 0#5 then 0#32 else m.aluOutput) ∧
    ((∀ m, s.memwb = .record m → decode m.ir ≠ .ori rd rs1 imm) → t.rf = s.rf) ∧
    OnlyRegister rd s t

/-- 42_load_store.md R200, LW: the address in EX, the word read in MEM, the register written in WB. -/
def Obligations.LwCompletesInEveryStage : Prop :=
  ∀ (rd rs1 : RegNum) (imm : BitVec 12) (s : State), ∃ t, exec (.lw rd rs1 imm) s = .next t ∧
    FrontEnd (.lw rd rs1 imm) (readReg s.rf rs1) (readReg s.rf (imm.extractLsb' 0 5)) (imm.signExtend 32) s t ∧
    (∀ d, s.idex = .record d → decode d.ir = .lw rd rs1 imm →
      t.exmem = .record ⟨d.ir, d.a + d.imm, d.b, false⟩) ∧
    (∀ e, s.exmem = .record e → decode e.ir = .lw rd rs1 imm →
      t.memwb = .record ⟨e.ir, memRead s.dmem e.aluOutput, e.aluOutput⟩) ∧
    (∀ m, s.memwb = .record m → decode m.ir = .lw rd rs1 imm →
      t.wbr = .record ⟨m.ir, rd, m.lmd, decide (rd ≠ 0#5)⟩ ∧
        readReg t.rf rd = if rd = 0#5 then 0#32 else m.lmd) ∧
    ((∀ m, s.memwb = .record m → decode m.ir ≠ .lw rd rs1 imm) → t.rf = s.rf) ∧
    OnlyRegister rd s t

/-- 42_load_store.md R201, SW: the address in EX, the store or its drop in MEM, no register written. The stored bytes
are the four at ALUOUTPUT of the EX/MEM record, where DataAdmit holds of it. -/
def Obligations.SwCompletesInEveryStage : Prop :=
  ∀ (rs2 rs1 : RegNum) (imm : BitVec 12) (s : State), ∃ t, exec (.sw rs2 rs1 imm) s = .next t ∧
    FrontEnd (.sw rs2 rs1 imm) (readReg s.rf rs1) (readReg s.rf rs2) (imm.signExtend 32) s t ∧
    (∀ d, s.idex = .record d → decode d.ir = .sw rs2 rs1 imm →
      t.exmem = .record ⟨d.ir, d.a + d.imm, d.b, false⟩) ∧
    (∀ e, s.exmem = .record e → decode e.ir = .sw rs2 rs1 imm →
      t.memwb = .record ⟨e.ir, 0#32, e.aluOutput⟩ ∧
      (s.dmem.wf → dataAdmit e.aluOutput = true → memRead t.dmem e.aluOutput = e.b ∧
        ∀ k < 4, readByte t.dmem (e.aluOutput.toNat + k) = e.b.extractLsb' (8 * k) 8) ∧
      (∀ a, ¬(dataAdmit e.aluOutput = true ∧ e.aluOutput.toNat ≤ a ∧ a < e.aluOutput.toNat + 4) →
        readByte t.dmem a = readByte s.dmem a)) ∧
    ((∀ e, s.exmem = .record e → decode e.ir ≠ .sw rs2 rs1 imm) → t.dmem = s.dmem) ∧
    (∀ m, s.memwb = .record m → decode m.ir = .sw rs2 rs1 imm →
      t.wbr = .record ⟨m.ir, rdOf m.ir, m.aluOutput, false⟩) ∧
    t.rf = s.rf ∧ t.program = s.program ∧ t.cycle = s.cycle + 1

/-- 43_branch.md R220, R222, BLT: signed comparison and target in EX, the redirect with the freeze, no register and no
byte written. -/
def Obligations.BltCompletesInEveryStage : Prop :=
  ∀ (rs1 rs2 : RegNum) (offset : BitVec 13) (s : State), ∃ t, exec (.blt rs1 rs2 offset) s = .next t ∧
    FrontEnd (.blt rs1 rs2 offset) (readReg s.rf rs1) (readReg s.rf rs2) (offset.signExtend 32) s t ∧
    (∀ d, s.idex = .record d → decode d.ir = .blt rs1 rs2 offset →
      t.exmem = .record ⟨d.ir, d.pc + d.imm, d.b, decide (d.a.toInt < d.b.toInt)⟩ ∧
      (d.a.toInt < d.b.toInt → t.pc = d.pc + d.imm)) ∧
    (∀ e, s.exmem = .record e → decode e.ir = .blt rs1 rs2 offset →
      t.memwb = .record ⟨e.ir, 0#32, e.aluOutput⟩) ∧
    (∀ m, s.memwb = .record m → decode m.ir = .blt rs1 rs2 offset →
      t.wbr = .record ⟨m.ir, rdOf m.ir, m.aluOutput, false⟩) ∧
    t.rf = s.rf ∧ t.dmem = s.dmem ∧ t.program = s.program ∧ t.cycle = s.cycle + 1

/-- 43_branch.md R221, R222, BGE. -/
def Obligations.BgeCompletesInEveryStage : Prop :=
  ∀ (rs1 rs2 : RegNum) (offset : BitVec 13) (s : State), ∃ t, exec (.bge rs1 rs2 offset) s = .next t ∧
    FrontEnd (.bge rs1 rs2 offset) (readReg s.rf rs1) (readReg s.rf rs2) (offset.signExtend 32) s t ∧
    (∀ d, s.idex = .record d → decode d.ir = .bge rs1 rs2 offset →
      t.exmem = .record ⟨d.ir, d.pc + d.imm, d.b, decide (d.a.toInt ≥ d.b.toInt)⟩ ∧
      (d.a.toInt ≥ d.b.toInt → t.pc = d.pc + d.imm)) ∧
    (∀ e, s.exmem = .record e → decode e.ir = .bge rs1 rs2 offset →
      t.memwb = .record ⟨e.ir, 0#32, e.aluOutput⟩) ∧
    (∀ m, s.memwb = .record m → decode m.ir = .bge rs1 rs2 offset →
      t.wbr = .record ⟨m.ir, rdOf m.ir, m.aluOutput, false⟩) ∧
    t.rf = s.rf ∧ t.dmem = s.dmem ∧ t.program = s.program ∧ t.cycle = s.cycle + 1

/-- 40_pipeline.md R136: the clock cycle of a raw word of class ILLEGAL. It takes its slot in every stage and writes
nothing. -/
def Obligations.IllegalWordCompletesInEveryStage : Prop :=
  ∀ (v : Word) (s : State), classOf v = .illegal → ∃ t, exec (.word v) s = .next t ∧
    FrontEnd (.word v) (readReg s.rf (rs1Of v)) (readReg s.rf (rs2Of v)) (immGen v) s t ∧
    (∀ d, s.idex = .record d → decode d.ir = .word v → t.exmem = .record ⟨d.ir, 0#32, d.b, false⟩) ∧
    (∀ e, s.exmem = .record e → decode e.ir = .word v → t.memwb = .record ⟨e.ir, 0#32, e.aluOutput⟩) ∧
    (∀ m, s.memwb = .record m → decode m.ir = .word v →
      t.wbr = .record ⟨m.ir, rdOf m.ir, m.aluOutput, false⟩) ∧
    t.rf = s.rf ∧ t.dmem = s.dmem ∧ t.program = s.program ∧ t.cycle = s.cycle + 1

/-- 44_assembler.md R257: a word placed by `.WORD` is executed as the instruction that its bits select, and completes. -/
def Obligations.RawWordRunsAsItsClass : Prop :=
  ∀ (v : Word) (s : State), exec (.word v) s = exec (decode v) s ∧ ∃ t, exec (.word v) s = .next t

/-! ### One instruction from fetch to write-back -/

/-- 41_logical.md R180 to R182 with 40_pipeline.md R146: from a state with nothing in flight, whatever follows in the
program, AND, OR and ORI have written their result, and nothing else, after five cycles. -/
def Obligations.LogicalResultAfterFiveCycles : Prop :=
  ∀ (s : State) (w : Word), Drained s → fetchWord s.program s.pc = some w → ∃ t, Runs 5 s t ∧
    (∀ rd rs1 rs2 funct7, decode w = .and rd rs1 rs2 funct7 → ∀ r,
      readReg t.rf r = if r = rd ∧ rd ≠ 0#5 then readReg s.rf rs1 &&& readReg s.rf rs2 else readReg s.rf r) ∧
    (∀ rd rs1 rs2 funct7, decode w = .or rd rs1 rs2 funct7 → ∀ r,
      readReg t.rf r = if r = rd ∧ rd ≠ 0#5 then readReg s.rf rs1 ||| readReg s.rf rs2 else readReg s.rf r) ∧
    (∀ rd rs1 imm, decode w = .ori rd rs1 imm → ∀ r,
      readReg t.rf r = if r = rd ∧ rd ≠ 0#5 then readReg s.rf rs1 ||| imm.zeroExtend 32 else readReg s.rf r)

/-- 42_load_store.md R200, R202 with 40_pipeline.md R146: the same for LW; an address that is not admitted loads 0. -/
def Obligations.LoadedWordAfterFiveCycles : Prop :=
  ∀ (s : State) (w : Word) (rd rs1 : RegNum) (imm : BitVec 12), Drained s → fetchWord s.program s.pc = some w →
    decode w = .lw rd rs1 imm → ∃ t, Runs 5 s t ∧ ∀ r,
      readReg t.rf r =
        if r = rd ∧ rd ≠ 0#5 then memRead s.dmem (readReg s.rf rs1 + imm.signExtend 32) else readReg s.rf r

/-- 42_load_store.md R201, R202 with 40_pipeline.md R146: SW has stored its word after four cycles, at the address it
computes, and changed no other byte; after five cycles no register has changed. -/
def Obligations.StoredWordAfterFourCycles : Prop :=
  ∀ (s : State) (w : Word) (rs2 rs1 : RegNum) (imm : BitVec 12), Drained s → fetchWord s.program s.pc = some w →
    decode w = .sw rs2 rs1 imm → ∃ t u, Runs 4 s t ∧ Runs 5 s u ∧
      t.dmem = memWrite s.dmem (readReg s.rf rs1 + imm.signExtend 32) (readReg s.rf rs2) ∧
      (∀ a, ¬(dataAdmit (readReg s.rf rs1 + imm.signExtend 32) = true ∧
          (readReg s.rf rs1 + imm.signExtend 32).toNat ≤ a ∧
          a < (readReg s.rf rs1 + imm.signExtend 32).toNat + 4) → readByte t.dmem a = readByte s.dmem a) ∧
      u.rf = s.rf

/-- 43_branch.md R220 to R222: three cycles after its fetch begins, a branch whose signed condition holds has sent PC to
its own address plus the offset, and the words behind it are gone; one whose condition fails has let the word behind it
into ID/EX. -/
def Obligations.BranchDecidesInThreeCycles : Prop :=
  ∀ (s : State) (w : Word) (rs1 rs2 : RegNum) (offset : BitVec 13) (taken : Bool), Drained s →
    fetchWord s.program s.pc = some w →
    (decode w = .blt rs1 rs2 offset ∧ taken = decide ((readReg s.rf rs1).toInt < (readReg s.rf rs2).toInt) ∨
      decode w = .bge rs1 rs2 offset ∧ taken = decide ((readReg s.rf rs1).toInt ≥ (readReg s.rf rs2).toInt)) →
    ∃ t, Runs 3 s t ∧ t.rf = s.rf ∧ t.dmem = s.dmem ∧
      (taken = true → t.pc = s.pc + offset.signExtend 32 ∧ t.ifid = .bubble ∧ t.idex = .bubble) ∧
      (taken = false → ∀ w', fetchWord s.program (s.pc + 4#32) = some w' →
        ∃ d, t.idex = .record d ∧ d.ir = w' ∧ d.pc = s.pc + 4#32)

/-! ### Branches and the freeze -/

/-- 40_pipeline.md R138, R140: a taken branch in EX empties ID/EX and IF/ID, sends PC to the target, and the target is
fetched, decoded and in EX in the next three cycles. -/
def Obligations.TakenBranchFreezesThePipeline : Prop :=
  ∀ (s : State) (d : IdEx), s.idex = .record d → Taken d → ∃ t, step s = .next t ∧
    t.idex = .bubble ∧ t.ifid = .bubble ∧ t.pc = d.pc + d.imm ∧
    ∀ w, fetchWord s.program t.pc = some w → ∃ t1 t2 t3,
      step t = .next t1 ∧ t1.ifid = .record ⟨w, t.pc + 4#32, t.pc⟩ ∧ t1.idex = .bubble ∧
      step t1 = .next t2 ∧ (∃ d2, t2.idex = .record d2 ∧ d2.ir = w ∧ d2.pc = t.pc) ∧
      step t2 = .next t3 ∧ ∃ e, t3.exmem = .record e ∧ e.ir = w

/-- 40_pipeline.md R141: the next value of PC over a cycle that is not the no-op. -/
def Obligations.NextValueOfPc : Prop :=
  ∀ s t : State, status s = .running → step s = .next t →
    (∀ d, s.idex = .record d → Taken d → t.pc = d.pc + d.imm) ∧
    (¬TakenIn s → fetchWord s.program s.pc ≠ none → t.pc = s.pc + 4#32) ∧
    (¬TakenIn s → fetchWord s.program s.pc = none → t.pc = s.pc)

/-- 43_branch.md R221: BGE is the negation of BLT on the same operands; equal operands are never less. -/
def Obligations.BgeIsTheNegationOfBlt : Prop :=
  ∀ a b : Word, signedGreaterEqual a b = !signedLess a b ∧ signedLess a a = false ∧ signedGreaterEqual a a = true

/-- 41_logical.md R182: ORI leaves bits 31 to 12 as they are and ors the twelve immediate bits into the rest. -/
def Obligations.OriLeavesTheUpperBits : Prop :=
  ∀ (a : Word) (imm : BitVec 12),
    (a ||| oriImmediate (imm.signExtend 32)).extractLsb' 12 20 = a.extractLsb' 12 20 ∧
    (a ||| oriImmediate (imm.signExtend 32)).extractLsb' 0 12 = a.extractLsb' 0 12 ||| imm

/-! ### Hazards -/

/-- 60_exceptions.md R294, 40_pipeline.md R131: a register written back in the cycle in which it is decoded is read as
it was before the write, and the write stands after the cycle. -/
def Obligations.DecodeReadsTheOldValue : Prop :=
  ∀ (s t : State) (m : MemWb) (f : IfId), s.memwb = .record m → s.ifid = .record f →
    writesRegister (classOf m.ir) = true → rdOf m.ir ≠ 0#5 → ¬TakenIn s → step s = .next t →
    (∃ d, t.idex = .record d ∧ d.a = readReg s.rf (rs1Of f.ir) ∧ d.b = readReg s.rf (rs2Of f.ir)) ∧
    readReg t.rf (rdOf m.ir) = if classOf m.ir = .lw then m.lmd else m.aluOutput

/-- 70_reset_and_hazards.md R325: the registers that Decode reads up to three fetch slots after a word are those of a
machine in which the word was never fetched. After the fourth step, and after every later one until another word with
that destination writes back, the destination holds the word's result, and a word then in IF/ID reads it. -/
def Obligations.ResultIsVisibleFromTheFourthSlotOn : Prop :=
  ∀ (s : State) (f : IfId), s.ifid = .record f →
    (∀ (k : Nat) (t t' : State), k ≤ 3 → Runs k s t → Runs k { s with ifid := .bubble } t' → t.rf = t'.rf) ∧
    (writesRegister (classOf f.ir) = true → rdOf f.ir ≠ 0#5 → ¬TakenIn s → ∃ t r, Runs 4 s t ∧
      t.wbr = .record r ∧ r.ir = f.ir ∧ r.rd = rdOf f.ir ∧ r.we = true ∧
      ∀ (n : Nat) (u : State), Runs n t u →
        (∀ (j : Nat) (v : State), j < n → Runs j t v → ¬WritesBack (rdOf f.ir) v) →
        readReg u.rf (rdOf f.ir) = r.value ∧
        ∀ g, u.ifid = .record g → ¬TakenIn u → ∃ v d, step u = .next v ∧ v.idex = .record d ∧
          (rs1Of g.ir = rdOf f.ir → d.a = r.value) ∧ (rs2Of g.ir = rdOf f.ir → d.b = r.value))

/-- 70_reset_and_hazards.md R328, 20_memory.md R73: a LW right behind a SW to the same admitted word reads the word
stored. -/
def Obligations.LoadRightBehindAStore : Prop :=
  ∀ (s : State) (e : ExMem) (d : IdEx), s.dmem.wf → s.exmem = .record e → s.idex = .record d →
    classOf e.ir = .sw → classOf d.ir = .lw → d.a + d.imm = e.aluOutput → dataAdmit e.aluOutput = true →
    ∃ t m, Runs 2 s t ∧ t.memwb = .record m ∧ m.ir = d.ir ∧ m.lmd = e.b

/-- 10_state.md R23: a step changes a register only by writing back, to its destination, a word of a class that has
one. -/
def Obligations.RegistersChangeOnlyInWriteBack : Prop :=
  ∀ (s t : State) (r : RegNum), step s = .next t → readReg t.rf r ≠ readReg s.rf r →
    ∃ m, s.memwb = .record m ∧ writesRegister (classOf m.ir) = true ∧ rdOf m.ir = r ∧ r ≠ 0#5

/-- 20_memory.md R61, R63: a step changes a byte only by a SW in MEM whose address is admitted, and only one of the four
bytes there. -/
def Obligations.MemoryChangesOnlyByAStore : Prop :=
  ∀ (s t : State) (a : Nat), step s = .next t → readByte t.dmem a ≠ readByte s.dmem a →
    ∃ e, s.exmem = .record e ∧ classOf e.ir = .sw ∧ dataAdmit e.aluOutput = true ∧
      e.aluOutput.toNat ≤ a ∧ a < e.aluOutput.toNat + 4

/-- 40_pipeline.md R136: an ILLEGAL word in each stage of a running machine: the step answers a next state, the word
keeps its slot, and it has no effect. -/
def Obligations.IllegalWordHasNoEffect : Prop :=
  ∀ s : State, status s = .running → ∃ t, step s = .next t ∧
    (∀ w, fetchWord s.program s.pc = some w → classOf w = .illegal → ¬TakenIn s →
      t.ifid = .record ⟨w, s.pc + 4#32, s.pc⟩) ∧
    (∀ f, s.ifid = .record f → classOf f.ir = .illegal → ¬TakenIn s →
      ∃ d, t.idex = .record d ∧ d.ir = f.ir) ∧
    (∀ d, s.idex = .record d → classOf d.ir = .illegal → t.exmem = .record ⟨d.ir, 0#32, d.b, false⟩) ∧
    (∀ e, s.exmem = .record e → classOf e.ir = .illegal →
      t.memwb = .record ⟨e.ir, 0#32, e.aluOutput⟩ ∧ t.dmem = s.dmem) ∧
    (∀ m, s.memwb = .record m → classOf m.ir = .illegal →
      t.rf = s.rf ∧ ∃ r, t.wbr = .record r ∧ r.ir = m.ir ∧ r.we = false) ∧
    t.cycle = s.cycle + 1

/-- 60_exceptions.md R290: a load at an address that is not admitted gives 0 and a store there is dropped; neither stops
the machine. -/
def Obligations.UnadmittedAccessIsSilent : Prop :=
  ∀ (s : State) (e : ExMem), s.exmem = .record e → dataAdmit e.aluOutput = false → ∃ t, step s = .next t ∧
    t.dmem = s.dmem ∧ t.memwb = .record ⟨e.ir, 0#32, e.aluOutput⟩

/-! ### State and memory operations -/

/-- 10_state.md R22: x0 reads 0, a write to it is discarded, and it stays 0 in every state reached from a launch. -/
def Obligations.RegisterZeroIsHardwired : Prop :=
  (∀ rf : RegFile, readReg rf 0#5 = 0#32) ∧ (∀ (rf : RegFile) (v : Word), writeReg rf 0#5 v = rf) ∧
  ∀ (lines : List (List Char)) (pokes : List (Word × Word)) (n : Nat) (s t : State),
    Runs n (launch lines pokes s) t → t.rf[0] = 0#32

/-- 20_memory.md R65 to R67: admission, the little-endian word read, the word written, and the silent drop. -/
def Obligations.WordAccessRules : Prop :=
  (∀ a : Word, dataAdmit a = true ↔ a < 0x80#32 ∧ a.extractLsb' 0 2 = 0b00#2) ∧
  (∀ (m : Memory) (a : Word), memRead m a = if dataAdmit a = true
    then readByte m (a.toNat + 3) ++ readByte m (a.toNat + 2) ++ readByte m (a.toNat + 1) ++ readByte m a.toNat
    else 0#32) ∧
  (∀ (m : Memory) (a v : Word), dataAdmit a = false → memWrite m a v = m) ∧
  (∀ (m : Memory) (a v : Word), m.wf → dataAdmit a = true →
    readByte (memWrite m a v) a.toNat = v.extractLsb' 0 8 ∧
    readByte (memWrite m a v) (a.toNat + 1) = v.extractLsb' 8 8 ∧
    readByte (memWrite m a v) (a.toNat + 2) = v.extractLsb' 16 8 ∧
    readByte (memWrite m a v) (a.toNat + 3) = v.extractLsb' 24 8 ∧
    (∀ b, b < a.toNat ∨ a.toNat + 4 ≤ b → readByte (memWrite m a v) b = readByte m b) ∧ (memWrite m a v).wf)

/-! ### Status, runs and the host -/

/-- 40_pipeline.md R144: once COMPLETE, no number of steps changes the state. Pokes and peeks never change the status. A
reset makes a COMPLETE machine RUNNING exactly when a word is mapped at PROG_START, an assemble exactly when it maps the
current PC, and no other operation does. -/
def Obligations.CompleteIsTerminal : Prop :=
  (∀ (n : Nat) (s : State), status s = .complete → Runs n s s ∧ hostRun n s = .next s) ∧
  (∀ (s t : State) (a v : Word) (reply : HostReply), hostDo (.pokeMemoryWord a v) s = .next (t, reply) →
    status t = status s) ∧
  (∀ (s t : State) (a : Word) (reply : HostReply), hostDo (.peekMemoryWord a) s = .next (t, reply) → t = s) ∧
  (∀ (s t : State) (i : Int) (reply : HostReply), hostDo (.peekRegister i) s = .next (t, reply) → t = s) ∧
  (∀ s : State, status s = .complete →
    (status (hostReset s) = .running ↔ fetchWord s.program 0x80#32 ≠ none)) ∧
  (∀ (s : State) (lines : List (List Char)), status s = .complete →
    (status (hostAssemble lines s) = .running ↔ fetchWord (hostAssemble lines s).program s.pc ≠ none)) ∧
  ∀ (op : HostOp) (s t : State) (reply : HostReply), status s = .complete → hostDo op s = .next (t, reply) →
    status t = .running → op = .reset ∨ ∃ lines, op = .assemble lines

/-- 40_pipeline.md R149: `run` does k steps, as long as the status is RUNNING and k is below the cap; it returns the
snapshot, and whether the status is still RUNNING. The default cap is 1000. -/
def Obligations.RunStopsAtCompleteOrTheCap : Prop :=
  (∀ (cap : Nat) (s : State), ∃ (k : Nat) (t : State), hostRun cap s = .next t ∧ Runs k s t ∧ k ≤ cap ∧
    (∀ j u, j < k → Runs j s u → status u = .running) ∧ (k < cap → status t = .complete) ∧
    t.cycle = s.cycle + k ∧
    hostDo (.run cap) s = .next (t, .ran (snapshot t) (decide (status t = .running)))) ∧
  (∀ s : State, hostRunDefault s = hostRun 1000 s)

/-- 40_pipeline.md R146: a program of n words of classes that do not branch, from reset, is COMPLETE at cycle n + 4 and
not before. -/
def Obligations.StraightLineProgramTakesNPlusFourCycles : Prop :=
  ∀ (s : State) (n : Nat), 1 ≤ n → n ≤ 32 →
    (∀ k, k < n → ∃ w, fetchWord s.program (BitVec.ofNat 32 (0x80 + 4 * k)) = some w ∧ NoBranch w) →
    fetchWord s.program (BitVec.ofNat 32 (0x80 + 4 * n)) = none →
    (∀ k t, k < n + 4 → Runs k (hostReset s) t → status t = .running) ∧
    ∃ t, Runs (n + 4) (hostReset s) t ∧ status t = .complete ∧ t.cycle = n + 4 ∧
      t.pc = BitVec.ofNat 32 (0x80 + 4 * n)

/-- 40_pipeline.md R150: peekRegister gives the register and changes nothing; an index outside 0 to 31 is refused. -/
def Obligations.PeekRegisterReadsOneRegister : Prop :=
  (∀ (s : State) (r : RegNum), hostDo (.peekRegister (r.toNat : Int)) s = .next (s, .word (readReg s.rf r))) ∧
  (∀ (s : State) (i : Int), i < 0 ∨ 31 < i → hostDo (.peekRegister i) s = .refused (.noSuchRegister i)) ∧
  ∀ s : State, hostDo (.peekRegister 0) s = .next (s, .word 0#32)

/-- 20_memory.md R71: a peek reads as LW does and changes nothing; a poke writes as SW does and nothing else changes;
it is seen by a peek, and by the LW that is in MEM in the next cycle. -/
def Obligations.PokeThenPeek : Prop :=
  (∀ (s : State) (a : Word), hostDo (.peekMemoryWord a) s = .next (s, .word (memRead s.dmem a)) ∧
    (dataAdmit a = false → hostDo (.peekMemoryWord a) s = .next (s, .word 0#32))) ∧
  (∀ (s : State) (a v : Word), s.dmem.wf → ∃ t, hostDo (.pokeMemoryWord a v) s = .next (t, .done) ∧
    t = { s with dmem := memWrite s.dmem a v } ∧ (dataAdmit a = false → t = s) ∧
    (∀ b, hostDo (.peekMemoryWord b) t =
      .next (t, .word (if b = a ∧ dataAdmit a = true then v else memRead s.dmem b))) ∧
    ∀ e, s.exmem = .record e → classOf e.ir = .lw → e.aluOutput = a → dataAdmit a = true →
      ∃ u, step t = .next u ∧ u.memwb = .record ⟨e.ir, v, e.aluOutput⟩)

/-- 40_pipeline.md R151: only step, run and reset change a register, a pipeline register, PC or the cycle counter; only
assemble changes ProgramMemory; data memory is written by pokes and by what steps and resets do. -/
def Obligations.WhatTheHostCannotWrite : Prop :=
  ∀ (op : HostOp) (s t : State) (reply : HostReply), hostDo op s = .next (t, reply) →
    (op ≠ .step → op ≠ .reset → (∀ n, op ≠ .run n) →
      t.rf = s.rf ∧ t.pc = s.pc ∧ t.ifid = s.ifid ∧ t.idex = s.idex ∧ t.exmem = s.exmem ∧ t.memwb = s.memwb ∧
      t.wbr = s.wbr ∧ t.cycle = s.cycle ∧ ((∀ a v, op ≠ .pokeMemoryWord a v) → t.dmem = s.dmem)) ∧
    ((∀ lines, op ≠ .assemble lines) → t.program = s.program)

/-! ### The assembler -/

/-- 44_assembler.md R263, R264: a successful assemble installs its program, a failed one the empty program; nothing else
changes. -/
def Obligations.AssembleInstallsOrEmpties : Prop :=
  ∀ (lines : List (List Char)) (s : State),
    (∀ p, assemble lines = .ok p → hostAssemble lines s = { s with program := p }) ∧
    (∀ e, assemble lines = .error e → hostAssemble lines s = { s with program := [] })

/-- 44_assembler.md R259, R262: an assembled program maps exactly one word for each instruction-bearing line, at 0x80,
0x84 and so on, and at most 32. -/
def Obligations.AssembledProgramIsContiguous : Prop :=
  ∀ (lines : List (List Char)) (p : Program), assemble lines = .ok p →
    p.map Prod.fst = (List.range (lines.countP instructionBearing)).map (fun k => 0x80 + 4 * k) ∧
    lines.countP instructionBearing ≤ 32 ∧ p.wf

/-- 44_assembler.md R241, R261, R266: an error names one of the source lines, counted from 1, and its kind is that of
its failure. -/
def Obligations.ErrorNamesASourceLine : Prop :=
  ∀ (lines : List (List Char)) (e : EncodingError), assemble lines = .error e →
    1 ≤ e.line ∧ e.line ≤ lines.length ∧
    (e.kind = .rangeError ↔
      e.failure = .outOfRangeImmediate ∨ e.failure = .oddOffset ∨ e.failure = .programTooLong)

/-- 44_assembler.md R250 to R257: operand texts that the grammars accept assemble to the instruction they name when the
immediate is in its field's range, and to a RangeError when it is not; a branch offset must also be even; `.WORD` takes
its value modulo 2^32. -/
def Obligations.OperandTextsAssemble : Prop :=
  ∀ (labels : LabelTable) (address : Nat) (ta tb tc : List Char) (ra rb rc : RegNum) (v : Int),
    parseRegister ta = some ra → parseRegister tb = some rb →
    (parseRegister tc = some rc →
      assembleOperands labels address .and [ta, tb, tc] = .ok (.and ra rb rc 0#7) ∧
      assembleOperands labels address .or [ta, tb, tc] = .ok (.or ra rb rc 0#7)) ∧
    (parseImmediate tc = some v →
      assembleOperands labels address .ori [ta, tb, tc] =
        (if -2048 ≤ v ∧ v ≤ 2047 then .ok (.ori ra rb (BitVec.ofInt 12 v)) else .error .outOfRangeImmediate) ∧
      assembleOperands labels address .lw [ta, tc] =
        (if -2048 ≤ v ∧ v ≤ 2047 then .ok (.lw ra 0#5 (BitVec.ofInt 12 v)) else .error .outOfRangeImmediate) ∧
      assembleOperands labels address .blt [ta, tb, tc] =
        (if -4096 ≤ v ∧ v ≤ 4094 then
          (if v % 2 = 0 then .ok (.blt ra rb (BitVec.ofInt 13 v)) else .error .oddOffset)
          else .error .outOfRangeImmediate) ∧
      assembleOperands labels address .bge [ta, tb, tc] =
        (if -4096 ≤ v ∧ v ≤ 4094 then
          (if v % 2 = 0 then .ok (.bge ra rb (BitVec.ofInt 13 v)) else .error .oddOffset)
          else .error .outOfRangeImmediate) ∧
      assembleOperands labels address .word [tc] =
        (if -2147483648 ≤ v ∧ v ≤ 4294967295 then .ok (.word (BitVec.ofInt 32 v))
          else .error .outOfRangeImmediate)) ∧
    (parseMemory tc = some (v, rc) →
      assembleOperands labels address .lw [ta, tc] =
        (if -2048 ≤ v ∧ v ≤ 2047 then .ok (.lw ra rc (BitVec.ofInt 12 v)) else .error .outOfRangeImmediate) ∧
      assembleOperands labels address .sw [ta, tc] =
        (if -2048 ≤ v ∧ v ≤ 2047 then .ok (.sw ra rc (BitVec.ofInt 12 v)) else .error .outOfRangeImmediate))

/-- 44_assembler.md R256, R258: a label operand gives the label's address less the branch's own; an unknown name is
unresolved. The addresses are those that pass 1 gives. -/
def Obligations.LabelOffsetIsRelativeToTheBranch : Prop :=
  ∀ (labels : LabelTable) (address : Nat) (name : List Char), isName name = true → programAddress address = true →
    (lookupLabel labels name = none → branchOperand labels address name = .error .unresolvedLabel) ∧
    ∀ target, lookupLabel labels name = some target → 0x80 ≤ target → target ≤ 0x100 → target % 4 = 0 →
      branchOperand labels address name = .ok (BitVec.ofInt 13 ((target : Int) - (address : Int))) ∧
      (BitVec.ofInt 13 ((target : Int) - (address : Int))).toInt = (target : Int) - (address : Int)

/-! ### Placing an instruction -/

/-- The instruction that `withFetchWord` places is the one that the next step fetches (the model's own operation, entry
18). -/
def Obligations.PlacedWordIsFetchedNext : Prop :=
  ∀ (s : State) (w : Nat), ∃ t f, step (s.withFetchWord 32 w) = .next t ∧ t.ifid = .record f ∧
    f.ir = BitVec.ofNat 32 w ∧ f.pc = (s.withFetchWord 32 w).pc ∧ programAddress f.pc.toNat = true ∧
    t.pc = f.pc + 4#32
end

