-- ==== Sys2Proof/Laws/Decode.lean ====
section
/-! SUPPORT. Small lemmas about fields, classes and immediates. -/

namespace Sys2Proof

/-- A row of the opcode map tests exactly opcode and funct3 (30_encoding.md R102). -/
theorem masked_eq (w : Word) :
    w &&& 0x0000707F#32 = 0#17 ++ funct3Of w ++ 0#5 ++ opcodeOf w := by
  apply BitVec.eq_of_getLsbD_eq
  intro i hi
  simp only [funct3Of, opcodeOf, BitVec.getLsbD_and, BitVec.getLsbD_append, BitVec.getLsbD_extractLsb']
  interval_cases i <;> simp

theorem row_matches_iff (w : Word) (f3 : BitVec 3) (op : BitVec 7) :
    w &&& 0x0000707F#32 = (0#17 ++ f3 ++ 0#5 ++ op : BitVec 32) ↔ funct3Of w = f3 ∧ opcodeOf w = op := by
  rw [masked_eq]
  constructor
  · intro h
    have h1 := congrArg (BitVec.extractLsb' 12 3) h
    have h2 := congrArg (BitVec.extractLsb' 0 7) h
    constructor
    · apply BitVec.eq_of_getLsbD_eq
      intro i hi
      have := congrArg (fun v => v.getLsbD i) h1
      simp only [BitVec.getLsbD_append, BitVec.getLsbD_extractLsb'] at this
      interval_cases i <;> simpa using this
    · apply BitVec.eq_of_getLsbD_eq
      intro i hi
      have := congrArg (fun v => v.getLsbD i) h2
      simp only [BitVec.getLsbD_append, BitVec.getLsbD_extractLsb'] at this
      interval_cases i <;> simpa using this
  · rintro ⟨rfl, rfl⟩
    rfl

/-- The class as a function of opcode and funct3 (R101). -/
def classFrom (op : BitVec 7) (f3 : BitVec 3) : InstrClass :=
  if f3 = 0b111#3 ∧ op = 0b0110011#7 then .and
  else if f3 = 0b110#3 ∧ op = 0b0110011#7 then .or
  else if f3 = 0b110#3 ∧ op = 0b0010011#7 then .ori
  else if f3 = 0b010#3 ∧ op = 0b0000011#7 then .lw
  else if f3 = 0b010#3 ∧ op = 0b0100011#7 then .sw
  else if f3 = 0b100#3 ∧ op = 0b1100011#7 then .blt
  else if f3 = 0b101#3 ∧ op = 0b1100011#7 then .bge
  else .illegal

theorem classOf_eq_classFrom (w : Word) : classOf w = classFrom (opcodeOf w) (funct3Of w) := by
  have row (f3 : BitVec 3) (op : BitVec 7) (v : Word) (hv : v = (0#17 ++ f3 ++ 0#5 ++ op : BitVec 32)) :
      (w &&& 0x0000707F#32 == v) = decide (funct3Of w = f3 ∧ opcodeOf w = op) := by
    rw [hv, Bool.eq_iff_iff]
    simpa using row_matches_iff w f3 op
  unfold classOf opcodeMap classFrom
  simp only [List.find?,
    row 0b111#3 0b0110011#7 0x00007033#32 (by decide), row 0b110#3 0b0110011#7 0x00006033#32 (by decide),
    row 0b110#3 0b0010011#7 0x00006013#32 (by decide), row 0b010#3 0b0000011#7 0x00002003#32 (by decide),
    row 0b010#3 0b0100011#7 0x00002023#32 (by decide), row 0b100#3 0b1100011#7 0x00004063#32 (by decide),
    row 0b101#3 0b1100011#7 0x00005063#32 (by decide)]
  clear row
  split_ifs <;> first | (simp only [*, decide_false]; done) | simp [*]

/-- The class that an instruction's words have. -/
def Instr.cls : Instr → InstrClass
  | .and _ _ _ _ => .and
  | .or _ _ _ _ => .or
  | .ori _ _ _ => .ori
  | .lw _ _ _ => .lw
  | .sw _ _ _ => .sw
  | .blt _ _ _ => .blt
  | .bge _ _ _ => .bge
  | .word v => classOf v

/-- The decoder keeps the class. -/
theorem cls_decode (w : Word) : (decode w).cls = classOf w := by
  unfold decode
  split <;> simp_all [Instr.cls]

/-- The destination that an instruction writes, if its class has one (40_pipeline.md R133). -/
def Instr.dest : Instr → Option RegNum
  | .and rd _ _ _ => some rd
  | .or rd _ _ _ => some rd
  | .ori rd _ _ => some rd
  | .lw rd _ _ => some rd
  | .sw _ _ _ => none
  | .blt _ _ _ => none
  | .bge _ _ _ => none
  | .word _ => none

/-- A decoded destination is the field at bits 11:7. -/
theorem dest_decode {w : Word} {rd : RegNum} (h : (decode w).dest = some rd) : rd = rdOf w := by
  unfold decode at h
  split at h <;> simp_all [Instr.dest]

theorem decode_eq_and_iff {w : Word} {rd rs1 rs2 : RegNum} {funct7 : BitVec 7} :
    decode w = .and rd rs1 rs2 funct7 ↔
      classOf w = .and ∧ rdOf w = rd ∧ rs1Of w = rs1 ∧ rs2Of w = rs2 ∧ funct7Of w = funct7 := by
  unfold decode
  split <;> simp_all

theorem decode_eq_or_iff {w : Word} {rd rs1 rs2 : RegNum} {funct7 : BitVec 7} :
    decode w = .or rd rs1 rs2 funct7 ↔
      classOf w = .or ∧ rdOf w = rd ∧ rs1Of w = rs1 ∧ rs2Of w = rs2 ∧ funct7Of w = funct7 := by
  unfold decode
  split <;> simp_all

theorem decode_eq_ori_iff {w : Word} {rd rs1 : RegNum} {imm : BitVec 12} :
    decode w = .ori rd rs1 imm ↔ classOf w = .ori ∧ rdOf w = rd ∧ rs1Of w = rs1 ∧ immIOf w = imm := by
  unfold decode
  split <;> simp_all

theorem decode_eq_lw_iff {w : Word} {rd rs1 : RegNum} {imm : BitVec 12} :
    decode w = .lw rd rs1 imm ↔ classOf w = .lw ∧ rdOf w = rd ∧ rs1Of w = rs1 ∧ immIOf w = imm := by
  unfold decode
  split <;> simp_all

theorem decode_eq_sw_iff {w : Word} {rs2 rs1 : RegNum} {imm : BitVec 12} :
    decode w = .sw rs2 rs1 imm ↔ classOf w = .sw ∧ rs2Of w = rs2 ∧ rs1Of w = rs1 ∧ immSOf w = imm := by
  unfold decode
  split <;> simp_all

theorem decode_eq_blt_iff {w : Word} {rs1 rs2 : RegNum} {offset : BitVec 13} :
    decode w = .blt rs1 rs2 offset ↔
      classOf w = .blt ∧ rs1Of w = rs1 ∧ rs2Of w = rs2 ∧ immBOf w = offset := by
  unfold decode
  split <;> simp_all

theorem decode_eq_bge_iff {w : Word} {rs1 rs2 : RegNum} {offset : BitVec 13} :
    decode w = .bge rs1 rs2 offset ↔
      classOf w = .bge ∧ rs1Of w = rs1 ∧ rs2Of w = rs2 ∧ immBOf w = offset := by
  unfold decode
  split <;> simp_all

theorem decode_eq_word_iff {w v : Word} : decode w = .word v ↔ classOf w = .illegal ∧ w = v := by
  unfold decode
  split <;> simp_all

/-- A class fixes the opcode and so the immediate's format (R100, R101). -/
theorem immGen_of_class (w : Word) :
    immGen w = match classOf w with
      | .and => 0#32
      | .or => 0#32
      | .ori => (immIOf w).signExtend 32
      | .lw => (immIOf w).signExtend 32
      | .sw => (immSOf w).signExtend 32
      | .blt => (immBOf w).signExtend 32
      | .bge => (immBOf w).signExtend 32
      | .illegal => immGen w := by
  rw [classOf_eq_classFrom]
  unfold classFrom
  split_ifs with h1 h2 h3 h4 h5 h6 h7 <;> simp_all [immGen, formatOf]

/-- The B immediate is even (R98). -/
theorem immBOf_even (w : Word) : (immBOf w).getLsbD 0 = false := by
  simp only [immBOf, BitVec.getLsbD_append]
  simp

end Sys2Proof
end

