-- ==== Sys2Proof/Laws/Encode.lean ====
section
/-! SUPPORT. What the decoder's fields read from each encoded format (30_encoding.md R91 to R98, R105). -/

namespace Sys2Proof

/-! ### R format -/

@[simp] theorem opcodeOf_encodeR (f7 : BitVec 7) (rs2 rs1 : RegNum) (f3 : BitVec 3) (rd : RegNum) (op : BitVec 7) :
    opcodeOf (encodeR f7 rs2 rs1 f3 rd op) = op := by
  apply BitVec.eq_of_getLsbD_eq
  intro i hi
  simp only [opcodeOf, encodeR, BitVec.getLsbD_append, BitVec.getLsbD_extractLsb']
  interval_cases i <;> simp

@[simp] theorem rdOf_encodeR (f7 : BitVec 7) (rs2 rs1 : RegNum) (f3 : BitVec 3) (rd : RegNum) (op : BitVec 7) :
    rdOf (encodeR f7 rs2 rs1 f3 rd op) = rd := by
  apply BitVec.eq_of_getLsbD_eq
  intro i hi
  simp only [rdOf, encodeR, BitVec.getLsbD_append, BitVec.getLsbD_extractLsb']
  interval_cases i <;> simp

@[simp] theorem funct3Of_encodeR (f7 : BitVec 7) (rs2 rs1 : RegNum) (f3 : BitVec 3) (rd : RegNum) (op : BitVec 7) :
    funct3Of (encodeR f7 rs2 rs1 f3 rd op) = f3 := by
  apply BitVec.eq_of_getLsbD_eq
  intro i hi
  simp only [funct3Of, encodeR, BitVec.getLsbD_append, BitVec.getLsbD_extractLsb']
  interval_cases i <;> simp

@[simp] theorem rs1Of_encodeR (f7 : BitVec 7) (rs2 rs1 : RegNum) (f3 : BitVec 3) (rd : RegNum) (op : BitVec 7) :
    rs1Of (encodeR f7 rs2 rs1 f3 rd op) = rs1 := by
  apply BitVec.eq_of_getLsbD_eq
  intro i hi
  simp only [rs1Of, encodeR, BitVec.getLsbD_append, BitVec.getLsbD_extractLsb']
  interval_cases i <;> simp

@[simp] theorem rs2Of_encodeR (f7 : BitVec 7) (rs2 rs1 : RegNum) (f3 : BitVec 3) (rd : RegNum) (op : BitVec 7) :
    rs2Of (encodeR f7 rs2 rs1 f3 rd op) = rs2 := by
  apply BitVec.eq_of_getLsbD_eq
  intro i hi
  simp only [rs2Of, encodeR, BitVec.getLsbD_append, BitVec.getLsbD_extractLsb']
  interval_cases i <;> simp

@[simp] theorem funct7Of_encodeR (f7 : BitVec 7) (rs2 rs1 : RegNum) (f3 : BitVec 3) (rd : RegNum) (op : BitVec 7) :
    funct7Of (encodeR f7 rs2 rs1 f3 rd op) = f7 := by
  apply BitVec.eq_of_getLsbD_eq
  intro i hi
  simp only [funct7Of, encodeR, BitVec.getLsbD_append, BitVec.getLsbD_extractLsb']
  interval_cases i <;> simp

/-! ### I format -/

@[simp] theorem opcodeOf_encodeI (imm : BitVec 12) (rs1 : RegNum) (f3 : BitVec 3) (rd : RegNum) (op : BitVec 7) :
    opcodeOf (encodeI imm rs1 f3 rd op) = op := by
  apply BitVec.eq_of_getLsbD_eq
  intro i hi
  simp only [opcodeOf, encodeI, BitVec.getLsbD_append, BitVec.getLsbD_extractLsb']
  interval_cases i <;> simp

@[simp] theorem rdOf_encodeI (imm : BitVec 12) (rs1 : RegNum) (f3 : BitVec 3) (rd : RegNum) (op : BitVec 7) :
    rdOf (encodeI imm rs1 f3 rd op) = rd := by
  apply BitVec.eq_of_getLsbD_eq
  intro i hi
  simp only [rdOf, encodeI, BitVec.getLsbD_append, BitVec.getLsbD_extractLsb']
  interval_cases i <;> simp

@[simp] theorem funct3Of_encodeI (imm : BitVec 12) (rs1 : RegNum) (f3 : BitVec 3) (rd : RegNum) (op : BitVec 7) :
    funct3Of (encodeI imm rs1 f3 rd op) = f3 := by
  apply BitVec.eq_of_getLsbD_eq
  intro i hi
  simp only [funct3Of, encodeI, BitVec.getLsbD_append, BitVec.getLsbD_extractLsb']
  interval_cases i <;> simp

@[simp] theorem rs1Of_encodeI (imm : BitVec 12) (rs1 : RegNum) (f3 : BitVec 3) (rd : RegNum) (op : BitVec 7) :
    rs1Of (encodeI imm rs1 f3 rd op) = rs1 := by
  apply BitVec.eq_of_getLsbD_eq
  intro i hi
  simp only [rs1Of, encodeI, BitVec.getLsbD_append, BitVec.getLsbD_extractLsb']
  interval_cases i <;> simp

@[simp] theorem immIOf_encodeI (imm : BitVec 12) (rs1 : RegNum) (f3 : BitVec 3) (rd : RegNum) (op : BitVec 7) :
    immIOf (encodeI imm rs1 f3 rd op) = imm := by
  apply BitVec.eq_of_getLsbD_eq
  intro i hi
  simp only [immIOf, encodeI, BitVec.getLsbD_append, BitVec.getLsbD_extractLsb']
  interval_cases i <;> simp

/-! ### S format -/

@[simp] theorem opcodeOf_encodeS (imm : BitVec 12) (rs2 rs1 : RegNum) (f3 : BitVec 3) (op : BitVec 7) :
    opcodeOf (encodeS imm rs2 rs1 f3 op) = op := by
  apply BitVec.eq_of_getLsbD_eq
  intro i hi
  simp only [opcodeOf, encodeS, BitVec.getLsbD_append, BitVec.getLsbD_extractLsb']
  interval_cases i <;> simp

@[simp] theorem funct3Of_encodeS (imm : BitVec 12) (rs2 rs1 : RegNum) (f3 : BitVec 3) (op : BitVec 7) :
    funct3Of (encodeS imm rs2 rs1 f3 op) = f3 := by
  apply BitVec.eq_of_getLsbD_eq
  intro i hi
  simp only [funct3Of, encodeS, BitVec.getLsbD_append, BitVec.getLsbD_extractLsb']
  interval_cases i <;> simp

@[simp] theorem rs1Of_encodeS (imm : BitVec 12) (rs2 rs1 : RegNum) (f3 : BitVec 3) (op : BitVec 7) :
    rs1Of (encodeS imm rs2 rs1 f3 op) = rs1 := by
  apply BitVec.eq_of_getLsbD_eq
  intro i hi
  simp only [rs1Of, encodeS, BitVec.getLsbD_append, BitVec.getLsbD_extractLsb']
  interval_cases i <;> simp

@[simp] theorem rs2Of_encodeS (imm : BitVec 12) (rs2 rs1 : RegNum) (f3 : BitVec 3) (op : BitVec 7) :
    rs2Of (encodeS imm rs2 rs1 f3 op) = rs2 := by
  apply BitVec.eq_of_getLsbD_eq
  intro i hi
  simp only [rs2Of, encodeS, BitVec.getLsbD_append, BitVec.getLsbD_extractLsb']
  interval_cases i <;> simp

@[simp] theorem immSOf_encodeS (imm : BitVec 12) (rs2 rs1 : RegNum) (f3 : BitVec 3) (op : BitVec 7) :
    immSOf (encodeS imm rs2 rs1 f3 op) = imm := by
  apply BitVec.eq_of_getLsbD_eq
  intro i hi
  simp only [immSOf, encodeS, BitVec.getLsbD_append, BitVec.getLsbD_extractLsb']
  interval_cases i <;> simp

/-! ### B format -/

@[simp] theorem opcodeOf_encodeB (imm : BitVec 13) (rs2 rs1 : RegNum) (f3 : BitVec 3) (op : BitVec 7) :
    opcodeOf (encodeB imm rs2 rs1 f3 op) = op := by
  apply BitVec.eq_of_getLsbD_eq
  intro i hi
  simp only [opcodeOf, encodeB, BitVec.getLsbD_append, BitVec.getLsbD_extractLsb']
  interval_cases i <;> simp

@[simp] theorem funct3Of_encodeB (imm : BitVec 13) (rs2 rs1 : RegNum) (f3 : BitVec 3) (op : BitVec 7) :
    funct3Of (encodeB imm rs2 rs1 f3 op) = f3 := by
  apply BitVec.eq_of_getLsbD_eq
  intro i hi
  simp only [funct3Of, encodeB, BitVec.getLsbD_append, BitVec.getLsbD_extractLsb']
  interval_cases i <;> simp

@[simp] theorem rs1Of_encodeB (imm : BitVec 13) (rs2 rs1 : RegNum) (f3 : BitVec 3) (op : BitVec 7) :
    rs1Of (encodeB imm rs2 rs1 f3 op) = rs1 := by
  apply BitVec.eq_of_getLsbD_eq
  intro i hi
  simp only [rs1Of, encodeB, BitVec.getLsbD_append, BitVec.getLsbD_extractLsb']
  interval_cases i <;> simp

@[simp] theorem rs2Of_encodeB (imm : BitVec 13) (rs2 rs1 : RegNum) (f3 : BitVec 3) (op : BitVec 7) :
    rs2Of (encodeB imm rs2 rs1 f3 op) = rs2 := by
  apply BitVec.eq_of_getLsbD_eq
  intro i hi
  simp only [rs2Of, encodeB, BitVec.getLsbD_append, BitVec.getLsbD_extractLsb']
  interval_cases i <;> simp

theorem immBOf_encodeB (imm : BitVec 13) (rs2 rs1 : RegNum) (f3 : BitVec 3) (op : BitVec 7) (h : imm.getLsbD 0 = false) :
    immBOf (encodeB imm rs2 rs1 f3 op) = imm := by
  apply BitVec.eq_of_getLsbD_eq
  intro i hi
  simp only [immBOf, encodeB, BitVec.getLsbD_append, BitVec.getLsbD_extractLsb']
  interval_cases i <;> simp_all

end Sys2Proof
end

