-- ==== Sys2Proof/Laws/Ops.lean ====
section
/-! SUPPORT. What the operations on registers, data memory and program memory do: read after write, what a write leaves
alone, and the forms that every operation keeps. -/

namespace Sys2Proof.Machine

/-! ### Registers -/

/-- x0 reads 0 (10_state.md R22). -/
@[simp] theorem readReg_x0 (rf : RegFile) : readReg rf 0#5 = 0#32 := by simp [readReg]

/-- A write to x0 is discarded (R22). -/
@[simp] theorem writeReg_x0 (rf : RegFile) (v : Word) : writeReg rf 0#5 v = rf := by simp [writeReg]

/-- Reading after a write: the value at the register written, unless it is x0; every other register as before. -/
theorem readReg_writeReg (rf : RegFile) (i j : RegNum) (v : Word) :
    readReg (writeReg rf i v) j = if j = i ∧ i ≠ 0#5 then v else readReg rf j := by
  by_cases hi : i = 0#5
  · simp [hi]
  by_cases hj : j = 0#5
  · subst hj
    simp [Ne.symm hi]
  have hne : i.toNat = j.toNat ↔ j = i := ⟨fun h => (BitVec.eq_of_toNat_eq h).symm, fun h => h ▸ rfl⟩
  simp [readReg, writeReg, hi, hj, Vector.getElem_set, hne]

/-- A write leaves the stored x0 alone. -/
theorem writeReg_getElem_zero (rf : RegFile) (i : RegNum) (v : Word) : (writeReg rf i v)[0] = rf[0] := by
  unfold writeReg
  split
  · rfl
  · rename_i h
    refine Vector.getElem_set_ne _ _ fun h0 => h ?_
    exact BitVec.eq_of_toNat_eq (by simpa using h0)

/-! ### Data memory -/

@[simp] theorem readByte_nil (a : Nat) : readByte [] a = 0#8 := rfl

theorem readByte_cons (cell : Host.Cell) (m : Memory) (a : Nat) :
    readByte (cell :: m) a = if cell.1 = a then cell.2 else readByte m a := by
  unfold readByte
  by_cases h : cell.1 = a <;> simp [h]

/-- Below the first listed address everything reads 0x00. -/
theorem readByte_below {m : Memory} {a : Nat} (h : ∀ cell ∈ m, a < cell.1) : readByte m a = 0#8 := by
  induction m with
  | nil => rfl
  | cons cell rest ih =>
    have hc := h cell (by simp)
    rw [readByte_cons, if_neg (by omega), ih fun c hm => h c (by simp [hm])]

/-- Every listed address of a written memory is the one written or was listed before. -/
theorem mem_writeByte {a : Nat} {v : Byte} {m : Memory} {cell : Host.Cell} (h : cell ∈ writeByte a v m) :
    (cell = (a, v) ∧ v ≠ 0#8) ∨ cell ∈ m := by
  induction m with
  | nil =>
    unfold writeByte at h
    split at h <;> simp_all
  | cons c rest ih =>
    unfold writeByte at h
    split_ifs at h <;> simp only [List.mem_cons] at h ⊢ <;> tauto

/-- Reading a byte after a write, on a memory whose addresses rise. -/
theorem readByte_writeByte {m : Memory} (h : m.Pairwise (fun x y => x.1 < y.1)) (a b : Nat) (v : Byte) :
    readByte (writeByte a v m) b = if b = a then v else readByte m b := by
  induction m with
  | nil =>
    unfold writeByte
    by_cases hv : v = 0#8
    · simp [hv]
    · simp [hv, readByte_cons, eq_comm]
  | cons c rest ih =>
    have hrise := List.pairwise_cons.mp h
    unfold writeByte
    by_cases h1 : a < c.1
    · rw [if_pos h1]
      have hbelow : readByte (c :: rest) a = 0#8 := by
        refine readByte_below fun d hd => ?_
        rcases List.mem_cons.mp hd with rfl | hd
        · exact h1
        · exact h1.trans (hrise.1 d hd)
      by_cases hv : v = 0#8
      · rw [if_pos hv]
        by_cases hb : b = a
        · rw [if_pos hb, hb, hbelow, hv]
        · rw [if_neg hb]
      · rw [if_neg hv, readByte_cons]
        by_cases hb : b = a
        · simp [hb]
        · rw [if_neg (Ne.symm hb), if_neg hb]
    rw [if_neg h1]
    by_cases h2 : a = c.1
    · rw [if_pos h2]
      by_cases hv : v = 0#8
      · rw [if_pos hv, readByte_cons]
        by_cases hb : b = a
        · rw [if_pos hb, hv]
          refine readByte_below fun d hd => ?_
          have := hrise.1 d hd
          omega
        · rw [if_neg hb, if_neg (by omega)]
      · rw [if_neg hv, readByte_cons, readByte_cons]
        by_cases hb : b = a
        · simp [hb]
        · rw [if_neg (Ne.symm hb), if_neg hb, if_neg (by omega)]
    rw [if_neg h2, readByte_cons, readByte_cons, ih hrise.2]
    by_cases hb : b = a
    · rw [if_neg (show ¬c.1 = b by omega), if_pos hb, if_pos hb]
    · rw [if_neg hb, if_neg hb]

/-- A write leaves every other address alone, on any memory. -/
theorem readByte_writeByte_ne (m : Memory) {a b : Nat} (hb : b ≠ a) (v : Byte) :
    readByte (writeByte a v m) b = readByte m b := by
  induction m with
  | nil =>
    unfold writeByte
    by_cases hv : v = 0#8
    · simp [hv]
    · simp [hv, readByte_cons, Ne.symm hb]
  | cons c rest ih =>
    unfold writeByte
    split_ifs with h1 h2 h3 h4
    · rfl
    · rw [readByte_cons, if_neg (show ¬a = b by omega)]
    · rw [readByte_cons, if_neg (by omega)]
    · rw [readByte_cons, readByte_cons, if_neg (show ¬a = b by omega), if_neg (by omega)]
    · rw [readByte_cons, readByte_cons, ih]

/-- A write inside DATA keeps the canonical form. -/
theorem writeByte_wf {m : Memory} (h : m.wf) {a : Nat} (ha : a < 0x80) (v : Byte) : (writeByte a v m).wf := by
  refine ⟨?_, fun cell hc => ?_⟩
  · obtain ⟨hrise, _⟩ := h
    clear * - hrise
    induction m with
    | nil =>
      unfold writeByte
      split_ifs <;> simp
    | cons c rest ih =>
      have hr := List.pairwise_cons.mp hrise
      unfold writeByte
      split_ifs with h1 h2 h3 h4
      · exact hrise
      · refine List.pairwise_cons.mpr ⟨fun d hd => ?_, hrise⟩
        rcases List.mem_cons.mp hd with rfl | hd
        · exact h1
        · exact h1.trans (hr.1 d hd)
      · exact hr.2
      · refine List.pairwise_cons.mpr ⟨fun d hd => ?_, hr.2⟩
        have := hr.1 d hd
        simp only
        omega
      · refine List.pairwise_cons.mpr ⟨fun d hd => ?_, ih hr.2⟩
        rcases mem_writeByte hd with ⟨rfl, _⟩ | hd
        · simp only
          omega
        · exact hr.1 d hd
  · rcases mem_writeByte hc with ⟨rfl, hv⟩ | hm
    · exact ⟨ha, hv⟩
    · exact h.2 cell hm

/-- What admission means for the address (20_memory.md R65). -/
theorem dataAdmit_iff (a : Word) : dataAdmit a = true ↔ a.toNat < 0x80 ∧ a.toNat % 4 = 0 := by
  have h4 : (a.extractLsb' 0 2 == 0#2) = true ↔ a.toNat % 4 = 0 := by
    rw [beq_iff_eq, ← BitVec.toNat_inj]
    simp [BitVec.extractLsb'_toNat]
  rw [dataAdmit, Bool.and_eq_true, h4]
  simp [Config.dataEnd, BitVec.lt_def]

/-- An admitted address leaves room for its word inside DATA (R65). -/
theorem dataAdmit_room {a : Word} (h : dataAdmit a = true) : a.toNat + 3 < 0x80 := by
  have := (dataAdmit_iff a).mp h
  omega

/-- A load that is not admitted reads 0 (R66). -/
theorem memRead_not_admitted (m : Memory) {a : Word} (h : dataAdmit a = false) : memRead m a = 0#32 := by
  simp [memRead, h]

/-- A store that is not admitted changes nothing (R67). -/
theorem memWrite_not_admitted (m : Memory) {a : Word} (h : dataAdmit a = false) (v : Word) : memWrite m a v = m := by
  simp [memWrite, h]

/-- Every store keeps the canonical form. -/
theorem memWrite_wf {m : Memory} (h : m.wf) (a v : Word) : (memWrite m a v).wf := by
  unfold memWrite
  split
  · rename_i ha
    have := dataAdmit_room ha
    exact writeByte_wf (writeByte_wf (writeByte_wf (writeByte_wf h (by omega) _) (by omega) _) (by omega) _)
      (by omega) _
  · exact h

/-- The byte read after a store: the store's byte at its four addresses, little-endian, and as before elsewhere (R67). -/
theorem readByte_memWrite {m : Memory} (h : m.wf) (a v : Word) (b : Nat) :
    readByte (memWrite m a v) b =
      if dataAdmit a = true ∧ a.toNat ≤ b ∧ b < a.toNat + 4
      then v.extractLsb' (8 * (b - a.toNat)) 8 else readByte m b := by
  by_cases ha : dataAdmit a = true
  · have hroom := dataAdmit_room ha
    have h0 := writeByte_wf h (show a.toNat < 0x80 by omega) (v.extractLsb' 0 8)
    have h1 := writeByte_wf h0 (show a.toNat + 1 < 0x80 by omega) (v.extractLsb' 8 8)
    have h2 := writeByte_wf h1 (show a.toNat + 2 < 0x80 by omega) (v.extractLsb' 16 8)
    rw [memWrite, if_pos ha, readByte_writeByte h2.1, readByte_writeByte h1.1, readByte_writeByte h0.1,
      readByte_writeByte h.1]
    by_cases hb : a.toNat ≤ b ∧ b < a.toNat + 4
    · rw [if_pos (show dataAdmit a = true ∧ a.toNat ≤ b ∧ b < a.toNat + 4 from ⟨ha, hb⟩)]
      obtain hb' | hb' | hb' | hb' :
        b = a.toNat ∨ b = a.toNat + 1 ∨ b = a.toNat + 2 ∨ b = a.toNat + 3 := by omega
      all_goals simp [hb']
    · have hno : ¬(dataAdmit a = true ∧ a.toNat ≤ b ∧ b < a.toNat + 4) := fun hc => hb hc.2
      rw [if_neg hno, if_neg (by omega), if_neg (by omega), if_neg (by omega), if_neg (by omega)]
  · rw [if_neg (fun hc => ha hc.1), memWrite, if_neg ha]

/-- A store leaves every byte outside its four alone, on any memory. -/
theorem readByte_memWrite_outside (m : Memory) (a v : Word) (b : Nat)
    (h : ¬(dataAdmit a = true ∧ a.toNat ≤ b ∧ b < a.toNat + 4)) :
    readByte (memWrite m a v) b = readByte m b := by
  by_cases ha : dataAdmit a = true
  · have hb : ¬(a.toNat ≤ b ∧ b < a.toNat + 4) := fun hc => h ⟨ha, hc⟩
    rw [memWrite, if_pos ha, readByte_writeByte_ne _ (by omega), readByte_writeByte_ne _ (by omega),
      readByte_writeByte_ne _ (by omega), readByte_writeByte_ne _ (by omega)]
  · rw [memWrite, if_neg ha]

/-- Four bytes of a word, put together, are the word (20_memory.md R64). -/
theorem bytes_append (v : Word) :
    v.extractLsb' 24 8 ++ v.extractLsb' 16 8 ++ v.extractLsb' 8 8 ++ v.extractLsb' 0 8 = v := by
  apply BitVec.eq_of_getLsbD_eq
  intro i hi
  simp only [BitVec.getLsbD_append, BitVec.getLsbD_extractLsb']
  interval_cases i <;> simp

/-- Reading a word after a store: the stored word at the same admitted address, as before at every other (R73). -/
theorem memRead_memWrite {m : Memory} (h : m.wf) (a b v : Word) :
    memRead (memWrite m a v) b = if b = a ∧ dataAdmit a = true then v else memRead m b := by
  by_cases hb : dataAdmit b = true
  · by_cases hab : b = a
    · subst hab
      rw [if_pos ⟨rfl, hb⟩, memRead, if_pos hb]
      simp only [readByte_memWrite h, hb, true_and]
      simp [bytes_append]
    · rw [if_neg (fun hc => hab hc.1), memRead, memRead, if_pos hb, if_pos hb]
      have hne : a.toNat ≠ b.toNat := fun hc => hab (BitVec.eq_of_toNat_eq hc.symm)
      have hb4 := (dataAdmit_iff b).mp hb
      have other (k : Nat) (hk : k < 4) : readByte (memWrite m a v) (b.toNat + k) = readByte m (b.toNat + k) := by
        rw [readByte_memWrite h, if_neg]
        rintro ⟨ha, h1, h2⟩
        have ha4 := (dataAdmit_iff a).mp ha
        omega
      rw [other 3 (by omega), other 2 (by omega), other 1 (by omega), show b.toNat = b.toNat + 0 from rfl,
        other 0 (by omega)]
  · have hb' : dataAdmit b = false := by simpa using hb
    rw [memRead_not_admitted _ hb', memRead_not_admitted _ hb']
    split
    · rename_i hc
      rw [← hc.1] at hc
      exact absurd hc.2 hb
    · rfl

/-! ### Program memory -/

theorem fetchWord_nil (pc : Word) : fetchWord [] pc = none := rfl

theorem fetchWord_cons (entry : Nat × Word) (p : Program) (pc : Word) :
    fetchWord (entry :: p) pc = if entry.1 = pc.toNat then some entry.2 else fetchWord p pc := by
  unfold fetchWord
  by_cases h : entry.1 = pc.toNat <;> simp [h]

/-- A word that is fetched is listed at its address. -/
theorem mem_of_fetchWord {p : Program} {pc w : Word} (h : fetchWord p pc = some w) : (pc.toNat, w) ∈ p := by
  induction p with
  | nil => simp [fetchWord_nil] at h
  | cons entry rest ih =>
    rw [fetchWord_cons] at h
    split at h
    · rename_i he
      rw [← Option.some.inj h, ← he]
      exact List.mem_cons_self ..
    · exact List.mem_cons_of_mem _ (ih h)

/-- An address that is fetched from is one of ProgramMemory's (10_state.md R35). -/
theorem programAddress_of_fetchWord {p : Program} (hp : p.wf) {pc w : Word} (h : fetchWord p pc = some w) :
    programAddress pc.toNat = true :=
  hp.2 _ (mem_of_fetchWord h)

theorem mem_installWord {a : Nat} {w : Word} {p : Program} {entry : Nat × Word} (h : entry ∈ installWord a w p) :
    entry = (a, w) ∨ entry ∈ p := by
  induction p with
  | nil =>
    simp only [installWord, List.mem_singleton] at h
    exact .inl h
  | cons c rest ih =>
    unfold installWord at h
    split_ifs at h <;> simp only [List.mem_cons] at h ⊢ <;> tauto

/-- Installing a word at an address of ProgramMemory keeps its form. -/
theorem installWord_wf {p : Program} (h : p.wf) {a : Nat} (ha : programAddress a = true) (w : Word) :
    (installWord a w p).wf := by
  refine ⟨?_, fun entry he => ?_⟩
  · obtain ⟨hrise, _⟩ := h
    clear * - hrise
    induction p with
    | nil => simp [installWord]
    | cons c rest ih =>
      have hr := List.pairwise_cons.mp hrise
      unfold installWord
      split_ifs with h1 h2
      · refine List.pairwise_cons.mpr ⟨fun d hd => ?_, hrise⟩
        rcases List.mem_cons.mp hd with rfl | hd
        · exact h1
        · exact h1.trans (hr.1 d hd)
      · refine List.pairwise_cons.mpr ⟨fun d hd => ?_, hr.2⟩
        have := hr.1 d hd
        simp only
        omega
      · refine List.pairwise_cons.mpr ⟨fun d hd => ?_, ih hr.2⟩
        rcases mem_installWord hd with rfl | hd
        · simp only
          omega
        · exact hr.1 d hd
  · rcases mem_installWord he with rfl | hm
    · exact ha
    · exact h.2 entry hm

/-- An installed word is the one fetched, in any list. -/
theorem fetchWord_installWord_same (p : Program) (w pc : Word) :
    fetchWord (installWord pc.toNat w p) pc = some w := by
  induction p with
  | nil => simp [installWord, fetchWord_cons]
  | cons c rest ih =>
    unfold installWord
    split_ifs with h1 h2
    · simp [fetchWord_cons]
    · simp [fetchWord_cons]
    · rw [fetchWord_cons, if_neg (Ne.symm h2), ih]

/-- Fetching after installing: the word there, and as before elsewhere. -/
theorem fetchWord_installWord (p : Program) (a : Nat) (w pc : Word)
    (hrise : p.Pairwise (fun x y => x.1 < y.1)) :
    fetchWord (installWord a w p) pc = if pc.toNat = a then some w else fetchWord p pc := by
  induction p with
  | nil => simp [installWord, fetchWord_cons, eq_comm]
  | cons c rest ih =>
    have hr := List.pairwise_cons.mp hrise
    unfold installWord
    split_ifs with h1 h2 h3 h4
    · simp [fetchWord_cons, h2]
    · rw [fetchWord_cons, if_neg (Ne.symm h2)]
    · simp [fetchWord_cons, h4]
    · simp only [fetchWord_cons]
      rw [if_neg (Ne.symm h4), if_neg (by omega)]
    · rw [fetchWord_cons, if_neg (by omega), ih hr.2, if_pos (show pc.toNat = a by assumption)]
    · rw [fetchWord_cons, fetchWord_cons, ih hr.2, if_neg (show ¬pc.toNat = a by assumption)]

/-! ### Outcomes -/

@[simp] theorem andThen_next {σ τ φ ρ : Type} (s : σ) (f : σ → Host.Outcome τ φ ρ) :
    andThen (.next s) f = f s := rfl

/-- If a composition answers a next state, so did its first part. -/
theorem andThen_eq_next {σ τ φ ρ : Type} {o : Host.Outcome σ φ ρ} {f : σ → Host.Outcome τ φ ρ} {t : τ}
    (h : andThen o f = .next t) : ∃ s, o = .next s ∧ f s = .next t := by
  cases o with
  | next s => exact ⟨s, rfl, h⟩
  | fault r => cases h
  | refused r => cases h

end Sys2Proof.Machine
end

