-- ==== Sys2Proof/Laws/PerInstr.lean ====
section
/-! SUPPORT. Statements about every instruction, one lemma for each constructor. -/

namespace Sys2Proof.Laws

/-- The encoded word has the class of its instruction (30_encoding.md R101, R102, R105). -/
def EncodedClass.Statement (i : Instr) : Prop := classOf (encode i) = i.cls

theorem EncodedClass.and (rd rs1 rs2 : RegNum) (funct7 : BitVec 7) :
    EncodedClass.Statement (.and rd rs1 rs2 funct7) := by
  simp [EncodedClass.Statement, encode, classOf_eq_classFrom, classFrom, Instr.cls]

theorem EncodedClass.or (rd rs1 rs2 : RegNum) (funct7 : BitVec 7) :
    EncodedClass.Statement (.or rd rs1 rs2 funct7) := by
  simp [EncodedClass.Statement, encode, classOf_eq_classFrom, classFrom, Instr.cls]

theorem EncodedClass.ori (rd rs1 : RegNum) (imm : BitVec 12) : EncodedClass.Statement (.ori rd rs1 imm) := by
  simp [EncodedClass.Statement, encode, classOf_eq_classFrom, classFrom, Instr.cls]

theorem EncodedClass.lw (rd rs1 : RegNum) (imm : BitVec 12) : EncodedClass.Statement (.lw rd rs1 imm) := by
  simp [EncodedClass.Statement, encode, classOf_eq_classFrom, classFrom, Instr.cls]

theorem EncodedClass.sw (rs2 rs1 : RegNum) (imm : BitVec 12) : EncodedClass.Statement (.sw rs2 rs1 imm) := by
  simp [EncodedClass.Statement, encode, classOf_eq_classFrom, classFrom, Instr.cls]

theorem EncodedClass.blt (rs1 rs2 : RegNum) (offset : BitVec 13) : EncodedClass.Statement (.blt rs1 rs2 offset) := by
  simp [EncodedClass.Statement, encode, classOf_eq_classFrom, classFrom, Instr.cls]

theorem EncodedClass.bge (rs1 rs2 : RegNum) (offset : BitVec 13) : EncodedClass.Statement (.bge rs1 rs2 offset) := by
  simp [EncodedClass.Statement, encode, classOf_eq_classFrom, classFrom, Instr.cls]

theorem EncodedClass.word (v : Word) : EncodedClass.Statement (.word v) := rfl

end Sys2Proof.Laws
end

