-- ==== Sys2Proof/Laws/State.lean ====
section
/-! SUPPORT. What each update of the state does to each field, true by rfl. -/

namespace Sys2Proof.Machine

/-! ### Reset -/

@[simp] theorem reset_rf : State.reset.rf = Vector.replicate 32 0#32 := rfl
@[simp] theorem reset_dmem : State.reset.dmem = [] := rfl
@[simp] theorem reset_pc : State.reset.pc = 0x80#32 := rfl
@[simp] theorem reset_ifid : State.reset.ifid = .bubble := rfl
@[simp] theorem reset_idex : State.reset.idex = .bubble := rfl
@[simp] theorem reset_exmem : State.reset.exmem = .bubble := rfl
@[simp] theorem reset_memwb : State.reset.memwb = .bubble := rfl
@[simp] theorem reset_wbr : State.reset.wbr = .bubble := rfl
@[simp] theorem reset_cycle : State.reset.cycle = 0 := rfl
@[simp] theorem reset_program : State.reset.program = [] := rfl

/-! ### The host's reset and poke -/

@[simp] theorem hostReset_rf (s : State) : (hostReset s).rf = Vector.replicate 32 0#32 := rfl
@[simp] theorem hostReset_dmem (s : State) : (hostReset s).dmem = [] := rfl
@[simp] theorem hostReset_pc (s : State) : (hostReset s).pc = 0x80#32 := rfl
@[simp] theorem hostReset_ifid (s : State) : (hostReset s).ifid = .bubble := rfl
@[simp] theorem hostReset_idex (s : State) : (hostReset s).idex = .bubble := rfl
@[simp] theorem hostReset_exmem (s : State) : (hostReset s).exmem = .bubble := rfl
@[simp] theorem hostReset_memwb (s : State) : (hostReset s).memwb = .bubble := rfl
@[simp] theorem hostReset_wbr (s : State) : (hostReset s).wbr = .bubble := rfl
@[simp] theorem hostReset_cycle (s : State) : (hostReset s).cycle = 0 := rfl
@[simp] theorem hostReset_program (s : State) : (hostReset s).program = s.program := rfl

@[simp] theorem poke_rf (s : State) (a v : Word) : (pokeMemoryWord a v s).rf = s.rf := rfl
@[simp] theorem poke_dmem (s : State) (a v : Word) : (pokeMemoryWord a v s).dmem = memWrite s.dmem a v := rfl
@[simp] theorem poke_pc (s : State) (a v : Word) : (pokeMemoryWord a v s).pc = s.pc := rfl
@[simp] theorem poke_ifid (s : State) (a v : Word) : (pokeMemoryWord a v s).ifid = s.ifid := rfl
@[simp] theorem poke_idex (s : State) (a v : Word) : (pokeMemoryWord a v s).idex = s.idex := rfl
@[simp] theorem poke_exmem (s : State) (a v : Word) : (pokeMemoryWord a v s).exmem = s.exmem := rfl
@[simp] theorem poke_memwb (s : State) (a v : Word) : (pokeMemoryWord a v s).memwb = s.memwb := rfl
@[simp] theorem poke_wbr (s : State) (a v : Word) : (pokeMemoryWord a v s).wbr = s.wbr := rfl
@[simp] theorem poke_cycle (s : State) (a v : Word) : (pokeMemoryWord a v s).cycle = s.cycle := rfl
@[simp] theorem poke_program (s : State) (a v : Word) : (pokeMemoryWord a v s).program = s.program := rfl

/-! ### The idle cycle, and the cycle of one instruction -/

@[simp] theorem idleCycle_rf (s : State) : (idleCycle s).rf = s.rf := rfl
@[simp] theorem idleCycle_dmem (s : State) : (idleCycle s).dmem = s.dmem := rfl
@[simp] theorem idleCycle_pc (s : State) : (idleCycle s).pc = s.pc := rfl
@[simp] theorem idleCycle_ifid (s : State) : (idleCycle s).ifid = .bubble := rfl
@[simp] theorem idleCycle_idex (s : State) : (idleCycle s).idex = .bubble := rfl
@[simp] theorem idleCycle_exmem (s : State) : (idleCycle s).exmem = .bubble := rfl
@[simp] theorem idleCycle_memwb (s : State) : (idleCycle s).memwb = .bubble := rfl
@[simp] theorem idleCycle_wbr (s : State) : (idleCycle s).wbr = .bubble := rfl
@[simp] theorem idleCycle_cycle (s : State) : (idleCycle s).cycle = s.cycle + 1 := rfl
@[simp] theorem idleCycle_program (s : State) : (idleCycle s).program = s.program := rfl

theorem cycleOf_rf (i : Instr) (k : StageRules) (s : State) :
    (cycleOf i k s).rf =
      (writeBackUnit k (s.memwb.only fun m => decode m.ir == i) s.rf).1 := rfl

theorem cycleOf_dmem (i : Instr) (k : StageRules) (s : State) :
    (cycleOf i k s).dmem =
      (memoryUnit k (s.exmem.only fun e => decode e.ir == i) s.dmem).2 := rfl

theorem cycleOf_pc (i : Instr) (k : StageRules) (s : State) :
    (cycleOf i k s).pc =
      (redirectFetch (redirect (cycleOf i k s).exmem)
        (fetchUnit ((fetchWord s.program s.pc).filter fun w => decode w == i) s.pc)).2 := rfl

theorem cycleOf_ifid (i : Instr) (k : StageRules) (s : State) :
    (cycleOf i k s).ifid =
      (redirectFetch (redirect (cycleOf i k s).exmem)
        (fetchUnit ((fetchWord s.program s.pc).filter fun w => decode w == i) s.pc)).1 := rfl

theorem cycleOf_idex (i : Instr) (k : StageRules) (s : State) :
    (cycleOf i k s).idex =
      squashDecode (redirect (cycleOf i k s).exmem)
        (decodeUnit (s.ifid.only fun f => decode f.ir == i) s.rf) := rfl

theorem cycleOf_exmem (i : Instr) (k : StageRules) (s : State) :
    (cycleOf i k s).exmem =
      executeUnit k (s.idex.only fun d => decode d.ir == i) := rfl

theorem cycleOf_memwb (i : Instr) (k : StageRules) (s : State) :
    (cycleOf i k s).memwb =
      (memoryUnit k (s.exmem.only fun e => decode e.ir == i) s.dmem).1 := rfl

theorem cycleOf_wbr (i : Instr) (k : StageRules) (s : State) :
    (cycleOf i k s).wbr =
      (writeBackUnit k (s.memwb.only fun m => decode m.ir == i) s.rf).2 := rfl

@[simp] theorem cycleOf_cycle (i : Instr) (k : StageRules) (s : State) :
    (cycleOf i k s).cycle =
      s.cycle + 1 := rfl

@[simp] theorem cycleOf_program (i : Instr) (k : StageRules) (s : State) :
    (cycleOf i k s).program =
      s.program := rfl

end Sys2Proof.Machine
end

