-- ==== Sys2Proof/Laws/Pipeline.lean ====
section
/-! SUPPORT. What the stage units do to a Bubble and to a record, and what a clock cycle can do: one equation for each
outcome, so that later proofs unfold neither `exec` nor the step. -/

namespace Sys2Proof.Machine

/-! ### The stage units -/

@[simp] theorem only_bubble {ρ : Type} (keep : ρ → Bool) : (Latch.bubble : Latch ρ).only keep = .bubble := rfl

/-- A stage whose record passes the test is kept. -/
theorem only_record_of {ρ : Type} {keep : ρ → Bool} {r : ρ} (h : keep r = true) :
    (Latch.record r).only keep = .record r := by simp [Latch.only, h]

/-- What is left of a stage was there and passes the test. -/
theorem only_eq_record {ρ : Type} {keep : ρ → Bool} {latch : Latch ρ} {r : ρ} (h : latch.only keep = .record r) :
    latch = .record r ∧ keep r = true := by
  cases latch with
  | bubble => cases h
  | record q =>
    by_cases hk : keep q = true
    · rw [only_record_of hk] at h
      cases h
      exact ⟨rfl, hk⟩
    · simp [Latch.only, hk] at h

@[simp] theorem writeBackUnit_bubble (k : StageRules) (rf : RegFile) :
    writeBackUnit k .bubble rf = (rf, .bubble) := rfl

@[simp] theorem memoryUnit_bubble (k : StageRules) (m : Memory) : memoryUnit k .bubble m = (.bubble, m) := rfl

@[simp] theorem executeUnit_bubble (k : StageRules) : executeUnit k .bubble = .bubble := rfl

@[simp] theorem decodeUnit_bubble (rf : RegFile) : decodeUnit .bubble rf = .bubble := rfl

@[simp] theorem decodeUnit_record (f : IfId) (rf : RegFile) :
    decodeUnit (.record f) rf = .record (decodeRecord f rf) := rfl

@[simp] theorem executeUnit_record (k : StageRules) (d : IdEx) :
    executeUnit k (.record d) =
      .record ⟨d.ir, (k.execute d.a d.b d.imm d.pc).1, d.b, (k.execute d.a d.b d.imm d.pc).2⟩ := rfl

@[simp] theorem memoryUnit_record (k : StageRules) (e : ExMem) (m : Memory) :
    memoryUnit k (.record e) m =
      (.record ⟨e.ir, (k.access e.aluOutput e.b m).1, e.aluOutput⟩, (k.access e.aluOutput e.b m).2) := rfl

/-- WB of an instruction with a destination. -/
theorem writeBackUnit_some {k : StageRules} {rd : RegNum} (h : k.dest = some rd) (m : MemWb) (rf : RegFile) :
    writeBackUnit k (.record m) rf =
      (writeReg rf rd (k.select m), .record ⟨m.ir, rdOf m.ir, k.select m, decide (rd ≠ 0#5)⟩) := by
  simp [writeBackUnit, h]

/-- WB of an instruction without one. -/
theorem writeBackUnit_none {k : StageRules} (h : k.dest = none) (m : MemWb) (rf : RegFile) :
    writeBackUnit k (.record m) rf = (rf, .record ⟨m.ir, rdOf m.ir, k.select m, false⟩) := by
  simp [writeBackUnit, h]

@[simp] theorem redirect_bubble : redirect .bubble = none := rfl

@[simp] theorem redirect_record (e : ExMem) : redirect (.record e) = if e.cond then some e.aluOutput else none := rfl

@[simp] theorem squashDecode_none (l : Latch IdEx) : squashDecode none l = l := rfl

@[simp] theorem squashDecode_some (a : Word) (l : Latch IdEx) : squashDecode (some a) l = .bubble := rfl

@[simp] theorem redirectFetch_none (f : Latch IfId × Word) : redirectFetch none f = f := rfl

@[simp] theorem redirectFetch_some (a : Word) (f : Latch IfId × Word) :
    redirectFetch (some a) f = (.bubble, a) := rfl

@[simp] theorem fetchUnit_none (pc : Word) : fetchUnit none pc = (.bubble, pc) := rfl

@[simp] theorem fetchUnit_some (w pc : Word) :
    fetchUnit (some w) pc = (.record ⟨w, pc + 4#32, pc⟩, pc + 4#32) := rfl

@[simp] theorem word_bubble {ρ : Type} (ir : ρ → Word) : (Latch.bubble : Latch ρ).word ir = none := rfl

@[simp] theorem word_record {ρ : Type} (ir : ρ → Word) (r : ρ) : (Latch.record r).word ir = some (ir r) := rfl

/-! ### The clock cycle of a decoded word -/

/-- The rules of each instruction; those of a raw word are ILLEGAL's. -/
def rulesOf : Instr → StageRules
  | .and rd _ _ _ => andRules rd
  | .or rd _ _ _ => orRules rd
  | .ori rd _ _ => oriRules rd
  | .lw rd _ _ => lwRules rd
  | .sw _ _ _ => swRules
  | .blt _ _ _ => bltRules
  | .bge _ _ _ => bgeRules
  | .word _ => illegalRules

/-- Every decoded word has the clock cycle of its rules, and it never stops. -/
theorem exec_decode (w : Word) (s : State) :
    exec (decode w) s = .next (cycleOf (decode w) (rulesOf (decode w)) s) := by
  cases h : decode w with
  | word v =>
    obtain ⟨hc, rfl⟩ := decode_eq_word_iff.mp h
    simp [exec, execWord, h, rulesOf]
  | _ => rfl

/-- The destination that an instruction's rules write. -/
theorem dest_rulesOf (i : Instr) : (rulesOf i).dest = i.dest := by
  cases i <;> rfl

/-- The state after the clock cycle of the instruction in a stage. -/
def stageState (word : Option Word) (s : State) : State :=
  match word with
  | none => idleCycle s
  | some w => cycleOf (decode w) (rulesOf (decode w)) s

theorem inStage_eq (word : Option Word) (s : State) : inStage word s = .next (stageState word s) := by
  cases word with
  | none => rfl
  | some w => exact exec_decode w s

/-! ### Each stage's output, from the instruction in it -/

/-- The new register file and WB record (40_pipeline.md R133). -/
def writeBackOut (s : State) : RegFile × Latch WbRec :=
  match s.memwb with
  | .bubble => (s.rf, .bubble)
  | .record m => writeBackUnit (rulesOf (decode m.ir)) (.record m) s.rf

/-- The new MEM/WB and data memory (R134). -/
def memoryOut (s : State) : Latch MemWb × Memory :=
  match s.exmem with
  | .bubble => (.bubble, s.dmem)
  | .record e => memoryUnit (rulesOf (decode e.ir)) (.record e) s.dmem

/-- The new EX/MEM (R135). -/
def executeOut (s : State) : Latch ExMem :=
  match s.idex with
  | .bubble => .bubble
  | .record d => executeUnit (rulesOf (decode d.ir)) (.record d)

theorem writeBackOut_bubble {s : State} (h : s.memwb = .bubble) : writeBackOut s = (s.rf, .bubble) := by
  simp [writeBackOut, h]

theorem writeBackOut_record {s : State} {m : MemWb} (h : s.memwb = .record m) :
    writeBackOut s = writeBackUnit (rulesOf (decode m.ir)) (.record m) s.rf := by
  simp [writeBackOut, h]

theorem memoryOut_bubble {s : State} (h : s.exmem = .bubble) : memoryOut s = (.bubble, s.dmem) := by
  simp [memoryOut, h]

theorem memoryOut_record {s : State} {e : ExMem} (h : s.exmem = .record e) :
    memoryOut s = memoryUnit (rulesOf (decode e.ir)) (.record e) s.dmem := by
  simp [memoryOut, h]

theorem executeOut_bubble {s : State} (h : s.idex = .bubble) : executeOut s = .bubble := by
  simp [executeOut, h]

theorem executeOut_record {s : State} {d : IdEx} (h : s.idex = .record d) :
    executeOut s = executeUnit (rulesOf (decode d.ir)) (.record d) := by
  simp [executeOut, h]

theorem stage_writeBack (s : State) :
    ((stageState (s.memwb.word MemWb.ir) s).rf, (stageState (s.memwb.word MemWb.ir) s).wbr) =
      writeBackOut s := by
  unfold writeBackOut
  cases h : s.memwb with
  | bubble => rfl
  | record m => simp [stageState, cycleOf_rf, cycleOf_wbr, h, Latch.only]

theorem stage_memory (s : State) :
    ((stageState (s.exmem.word ExMem.ir) s).memwb, (stageState (s.exmem.word ExMem.ir) s).dmem) =
      memoryOut s := by
  unfold memoryOut
  cases h : s.exmem with
  | bubble => rfl
  | record e => simp [stageState, cycleOf_memwb, cycleOf_dmem, h, Latch.only]

theorem stage_execute (s : State) :
    (stageState (s.idex.word IdEx.ir) s).exmem = executeOut s := by
  unfold executeOut
  cases h : s.idex with
  | bubble => rfl
  | record d => simp [stageState, cycleOf_exmem, h, Latch.only]

/-- The redirect that an instruction orders by itself is one that the machine sees. -/
theorem redirect_cycleOf (i : Instr) (s : State) :
    redirect (cycleOf i (rulesOf i) s).exmem = none ∨
      redirect (cycleOf i (rulesOf i) s).exmem = redirect (stageState (s.idex.word IdEx.ir) s).exmem := by
  cases h : s.idex with
  | bubble => left; simp [cycleOf_exmem, h]
  | record d =>
    by_cases hd : decode d.ir = i
    · right
      subst hd
      simp [stageState, cycleOf_exmem, h]
    · left
      simp [cycleOf_exmem, h, Latch.only, hd]

/-- The state after one clock cycle of a running machine. -/
def cycleState (s : State) : State :=
  { rf := (writeBackOut s).1
    dmem := (memoryOut s).2
    pc := (redirectFetch (redirect (executeOut s)) (fetchUnit (fetchWord s.program s.pc) s.pc)).2
    ifid := (redirectFetch (redirect (executeOut s)) (fetchUnit (fetchWord s.program s.pc) s.pc)).1
    idex := squashDecode (redirect (executeOut s)) (decodeUnit s.ifid s.rf)
    exmem := executeOut s
    memwb := (memoryOut s).1
    wbr := (writeBackOut s).2
    cycle := s.cycle + 1
    program := s.program }

theorem squash_stage (s : State) :
    squashDecode (redirect (stageState (s.idex.word IdEx.ir) s).exmem) (stageState (s.ifid.word IfId.ir) s).idex =
      squashDecode (redirect (stageState (s.idex.word IdEx.ir) s).exmem) (decodeUnit s.ifid s.rf) := by
  cases hf : s.ifid with
  | bubble => simp [stageState]
  | record f =>
    cases hr : redirect (stageState (s.idex.word IdEx.ir) s).exmem with
    | some a => rfl
    | none =>
      have h := redirect_cycleOf (decode f.ir) s
      rw [hr, or_self] at h
      simp [stageState, cycleOf_idex, h, hf, Latch.only]

theorem fetch_stage (s : State) :
    redirectFetch (redirect (stageState (s.idex.word IdEx.ir) s).exmem)
        ((stageState (fetchWord s.program s.pc) s).ifid, (stageState (fetchWord s.program s.pc) s).pc) =
      redirectFetch (redirect (stageState (s.idex.word IdEx.ir) s).exmem)
        (fetchUnit (fetchWord s.program s.pc) s.pc) := by
  cases hf : fetchWord s.program s.pc with
  | none => simp [stageState]
  | some w =>
    cases hr : redirect (stageState (s.idex.word IdEx.ir) s).exmem with
    | some a => rfl
    | none =>
      have h := redirect_cycleOf (decode w) s
      rw [hr, or_self] at h
      simp [stageState, cycleOf_ifid, cycleOf_pc, h, hf, Option.filter]

/-- One clock cycle answers `cycleState`. -/
theorem clockCycle_eq (s : State) : clockCycle s = .next (cycleState s) := by
  have hwb := stage_writeBack s
  have hmem := stage_memory s
  simp only [clockCycle, inStage_eq, andThen_next]
  rw [squash_stage, fetch_stage, stage_execute]
  simp only [cycleState, ← hwb, ← hmem]

/-- A step either finds the machine COMPLETE and changes nothing, or is one clock cycle. -/
theorem step_eq (s : State) :
    step s = .next (if status s = .complete then s else cycleState s) := by
  unfold step stepCore
  cases h : status s with
  | complete => simp
  | running => simp [clockCycle_eq]

/-- The same as an inversion: what a step can do. -/
theorem step_cases {s t : State} (h : step s = .next t) :
    (status s = .complete ∧ t = s) ∨ (status s = .running ∧ t = cycleState s) := by
  rw [step_eq] at h
  cases hs : status s with
  | complete =>
    left
    simp [hs] at h
    exact ⟨rfl, h.symm⟩
  | running =>
    right
    simp [hs] at h
    exact ⟨rfl, h.symm⟩

@[simp] theorem cycleState_cycle (s : State) : (cycleState s).cycle = s.cycle + 1 := rfl

@[simp] theorem cycleState_program (s : State) : (cycleState s).program = s.program := rfl

theorem cycleState_rf (s : State) :
    (cycleState s).rf = (writeBackOut s).1 := rfl

theorem cycleState_wbr (s : State) :
    (cycleState s).wbr = (writeBackOut s).2 := rfl

theorem cycleState_memwb (s : State) :
    (cycleState s).memwb = (memoryOut s).1 := rfl

theorem cycleState_dmem (s : State) :
    (cycleState s).dmem = (memoryOut s).2 := rfl

theorem cycleState_exmem (s : State) :
    (cycleState s).exmem = executeOut s := rfl

theorem cycleState_idex (s : State) :
    (cycleState s).idex = squashDecode (redirect (executeOut s)) (decodeUnit s.ifid s.rf) := rfl

theorem cycleState_ifid (s : State) :
    (cycleState s).ifid = (redirectFetch (redirect (executeOut s)) (fetchUnit (fetchWord s.program s.pc) s.pc)).1 := rfl

theorem cycleState_pc (s : State) :
    (cycleState s).pc = (redirectFetch (redirect (executeOut s)) (fetchUnit (fetchWord s.program s.pc) s.pc)).2 := rfl

/-- COMPLETE, spelled out (40_pipeline.md R143). -/
theorem status_eq_complete (s : State) :
    status s = .complete ↔
      fetchWord s.program s.pc = none ∧ s.ifid = .bubble ∧ s.idex = .bubble ∧ s.exmem = .bubble ∧
        s.memwb = .bubble := by
  unfold status
  split <;> simp_all

/-- Not COMPLETE is RUNNING. -/
theorem status_eq_running (s : State) : status s = .running ↔ status s ≠ .complete := by
  cases status s <;> simp

end Sys2Proof.Machine
end

