-- ==== Sys2Proof/Laws/Runs.lean ====
section
/-! SUPPORT. Runs of clock cycles, one at a time. -/

namespace Sys2Proof.Machine

@[simp] theorem runs_zero {s t : State} : Runs 0 s t ↔ s = t := Iff.rfl

/-- One step, then the rest. -/
theorem runs_succ {k : Nat} {s u : State} : Runs (k + 1) s u ↔ ∃ t, step s = .next t ∧ Runs k t u := Iff.rfl

/-- One cycle of a running machine, then the rest. -/
theorem runs_succ_running {k : Nat} {s u : State} (h : status s = .running) :
    Runs (k + 1) s u ↔ Runs k (cycleState s) u := by
  rw [runs_succ, step_eq, if_neg (by simp [h])]
  exact ⟨fun ⟨t, ht, hr⟩ => Host.Outcome.next.inj ht ▸ hr, fun hr => ⟨_, rfl, hr⟩⟩

/-- A COMPLETE machine stays where it is. -/
theorem runs_complete {s : State} (h : status s = .complete) (k : Nat) (t : State) : Runs k s t ↔ s = t := by
  induction k with
  | zero => exact Iff.rfl
  | succ k ih =>
    rw [runs_succ, step_eq, if_pos h]
    exact ⟨fun ⟨_, ht, hr⟩ => ih.mp (Host.Outcome.next.inj ht ▸ hr), fun hr => ⟨s, rfl, ih.mpr hr⟩⟩

/-- From every state there is exactly one run of each length. -/
theorem runs_total (k : Nat) (s : State) : ∃ t, Runs k s t := by
  induction k generalizing s with
  | zero => exact ⟨s, rfl⟩
  | succ k ih =>
    obtain ⟨t, ht⟩ := ih (if status s = .complete then s else cycleState s)
    exact ⟨t, _, step_eq s, ht⟩

/-- A machine with a record in one of its stages is running. -/
theorem running_of_stage {s : State}
    (h : s.ifid ≠ .bubble ∨ s.idex ≠ .bubble ∨ s.exmem ≠ .bubble ∨ s.memwb ≠ .bubble) : status s = .running := by
  rw [status_eq_running]
  intro hc
  obtain ⟨-, h1, h2, h3, h4⟩ := (status_eq_complete s).mp hc
  simp_all

/-- A machine that has a word to fetch is running. -/
theorem running_of_fetch {s : State} {w : Word} (h : fetchWord s.program s.pc = some w) : status s = .running := by
  rw [status_eq_running]
  intro hc
  rw [((status_eq_complete s).mp hc).1] at h
  cases h

end Sys2Proof.Machine
end

