-- ==== Sys2Proof/Tests/Slice0.lean ====
section
/-! SUPPORT. Tests: the checks of WellFormed, the decoder on words written out from 30_encoding.md, one clock cycle of
each instruction, the assembler and host vectors of 95_test_vectors.md, and, for every statement with hypotheses, a
concrete case that meets them. -/

namespace Sys2Proof.Tests

open Sys2Proof Sys2Proof.Machine

/-! ### WellFormed: each check refuses an ill-formed term -/

theorem test_odd_blt_offset_refused : (Instr.blt 1#5 2#5 0x0007#13).wellFormed = false := by decide
theorem test_odd_bge_offset_refused : (Instr.bge 1#5 2#5 0x1FFF#13).wellFormed = false := by decide
theorem test_word_of_a_class_refused : (Instr.word 0x0020F1B3#32).wellFormed = false := by decide
theorem test_even_offsets_accepted :
    (Instr.blt 1#5 2#5 0x1000#13).wellFormed = true ∧ (Instr.bge 1#5 2#5 0x0FFE#13).wellFormed = true := by decide
theorem test_illegal_word_accepted : (Instr.word 0x00500093#32).wellFormed = true := by decide

/-! ### Decoding: words written out field by field (30_encoding.md R92 to R95), and the V-ENC vectors -/

/-- R92: funct7, rs2, rs1, funct3, rd, opcode. -/
theorem test_decode_and :
    decode (0b0000000#7 ++ 0b00010#5 ++ 0b00001#5 ++ 0b111#3 ++ 0b00011#5 ++ 0b0110011#7) =
      .and 3#5 1#5 2#5 0#7 := by decide

theorem test_decode_or :
    decode (0b0000000#7 ++ 0b00010#5 ++ 0b00001#5 ++ 0b110#3 ++ 0b00011#5 ++ 0b0110011#7) =
      .or 3#5 1#5 2#5 0#7 := by decide

/-- R93: imm[11:0], rs1, funct3, rd, opcode. -/
theorem test_decode_ori :
    decode (0b111111111110#12 ++ 0b00111#5 ++ 0b110#3 ++ 0b00001#5 ++ 0b0010011#7) =
      .ori 1#5 7#5 0xFFE#12 := by decide

theorem test_decode_lw :
    decode (0b111111111100#12 ++ 0b00010#5 ++ 0b010#3 ++ 0b00001#5 ++ 0b0000011#7) =
      .lw 1#5 2#5 0xFFC#12 := by decide

/-- R94: imm[11:5], rs2, rs1, funct3, imm[4:0], opcode; here imm = 0b101010100011. -/
theorem test_decode_sw :
    decode (0b1010101#7 ++ 0b00011#5 ++ 0b00010#5 ++ 0b010#3 ++ 0b00011#5 ++ 0b0100011#7) =
      .sw 3#5 2#5 0b101010100011#12 := by decide

/-- R95: imm[12], imm[10:5], rs2, rs1, funct3, imm[4:1], imm[11], opcode; here imm = 0b0_1_000001_0010_0. -/
theorem test_decode_blt :
    decode (0b0#1 ++ 0b000001#6 ++ 0b00010#5 ++ 0b00001#5 ++ 0b100#3 ++ 0b0010#4 ++ 0b1#1 ++ 0b1100011#7) =
      .blt 1#5 2#5 0b0100000100100#13 := by decide

/-- The same with imm = 0b1_0_111111_1111_0. -/
theorem test_decode_bge :
    decode (0b1#1 ++ 0b111111#6 ++ 0b00100#5 ++ 0b00011#5 ++ 0b101#3 ++ 0b1111#4 ++ 0b0#1 ++ 0b1100011#7) =
      .bge 3#5 4#5 0b1011111111110#13 := by decide

/-- V-ENC-17 to V-ENC-24: no row matches. -/
theorem test_decode_illegal :
    [0x00000000#32, 0xFFFFFFFF#32, 0x00500093#32, 0x00000033#32, 0x00001063#32, 0x00003003#32, 0x00000073#32,
      0x0000000F#32].all (fun w => decode w == .word w) = true := by decide

/-- The IMM column of V-ENC-1 to V-ENC-8. -/
theorem test_immediates_r_i_s :
    [0x0020F1B3#32, 0x0020E1B3#32, 0x00506093#32, 0xFFF06093#32, 0x80006093#32, 0xFFC12083#32, 0x00002203#32,
      0x80312023#32].map immGen =
    [0#32, 0#32, 5#32, 0xFFFFFFFF#32, 0xFFFFF800#32, 0xFFFFFFFC#32, 0#32, 0xFFFFF800#32] := by decide

/-- The IMM column of V-ENC-9 to V-ENC-15, V-ENC-18 and V-ENC-19. -/
theorem test_immediates_s_b_none :
    [0x06102E23#32, 0x7E102FA3#32, 0x0020C463#32, 0x8020C063#32, 0x7E41DFE3#32, 0xFE20CEE3#32, 0xFE005CE3#32,
      0xFFFFFFFF#32, 0x00500093#32].map immGen =
    [0x7C#32, 0x7FF#32, 8#32, 0xFFFFF000#32, 0xFFE#32, 0xFFFFFFFC#32, 0xFFFFFFF8#32, 0#32, 5#32] := by decide

/-- V-ENC-1, 2, 3, 6, 8, 12, 13, the other way. -/
theorem test_encode :
    [Instr.and 3#5 1#5 2#5 0#7, .or 3#5 1#5 2#5 0#7, .ori 1#5 0#5 5#12, .lw 1#5 2#5 0xFFC#12, .sw 3#5 2#5 0x800#12,
      .blt 1#5 2#5 0x1000#13, .bge 3#5 4#5 0x0FFE#13].map encode =
    [0x0020F1B3#32, 0x0020E1B3#32, 0x00506093#32, 0xFFC12083#32, 0x80312023#32, 0x8020C063#32, 0x7E41DFE3#32] := by
  decide

/-- No word matches two rows (30_encoding.md R102): any two rows differ in a bit that both test. -/
theorem test_rows_do_not_overlap :
    opcodeMap.Pairwise (fun r q => r.value &&& q.mask ≠ q.value &&& r.mask) := by decide

theorem test_table_word_is_one_word :
    decodeTableWord 32 0x0020F1B3 = some (.and 3#5 1#5 2#5 0#7) ∧ decodeTableWord 64 0 = none := by decide

/-! ### Small states -/

/-- The launch state of a program of one word, with three registers set. -/
def fetching (w : Word) : State :=
  { State.reset with
    program := [(0x80, w)]
    rf := writeReg (writeReg (writeReg State.reset.rf 1#5 1#32) 2#5 2#32) 31#5 0xFFFFFFFF#32 }

/-- A word in IF/ID. -/
def inId (w : Word) : State := { fetching w with ifid := .record ⟨w, 0x84#32, 0x80#32⟩ }

/-- A word in ID/EX, with its operands. -/
def inEx (w a b : Word) : State :=
  { fetching w with idex := .record ⟨w, 0x84#32, 0x80#32, a, b, immGen w⟩ }

/-- A word in EX/MEM, over a memory that holds 0xDEADBEEF at 0x7C. -/
def inMem (w alu b : Word) : State :=
  { fetching w with
    exmem := .record ⟨w, alu, b, false⟩
    dmem := [(0x7C, 0xEF#8), (0x7D, 0xBE#8), (0x7E, 0xAD#8), (0x7F, 0xDE#8)] }

/-- A word in MEM/WB. -/
def inWb (w lmd alu : Word) : State := { fetching w with memwb := .record ⟨w, lmd, alu⟩ }

/-- What a next state shows, and nothing for a stop. -/
def seen {α : Type} (view : State → α) (o : Host.Outcome State Fault Refusal) : Option α :=
  match o with
  | .next t => some (view t)
  | .fault _ => none
  | .refused _ => none

/-! ### One clock cycle of each instruction, from 95_test_vectors.md V-LOG, V-LS, V-BR -/

/-- V-LOG-3. -/
theorem test_and_in_ex :
    seen State.exmem (exec (.and 3#5 1#5 2#5 0#7) (inEx 0x0020F1B3#32 0xFFFF0000#32 0x12345678#32)) =
      some (.record ⟨0x0020F1B3#32, 0x12340000#32, 0x12345678#32, false⟩) := by decide

theorem test_and_in_wb :
    seen (fun t => (readReg t.rf 3#5, readReg t.rf 1#5)) (exec (.and 3#5 1#5 2#5 0#7) (inWb 0x0020F1B3#32 9#32 7#32)) =
      some (7#32, 1#32) := by decide

/-- V-LOG-2. -/
theorem test_or_in_ex :
    seen State.exmem (exec (.or 3#5 1#5 2#5 0#7) (inEx 0x0020E1B3#32 0x0000FFFF#32 0xFFFF0000#32)) =
      some (.record ⟨0x0020E1B3#32, 0xFFFFFFFF#32, 0xFFFF0000#32, false⟩) := by decide

theorem test_or_in_id :
    seen State.idex (exec (.or 3#5 1#5 2#5 0#7) (inId 0x0020E1B3#32)) =
      some (.record ⟨0x0020E1B3#32, 0x84#32, 0x80#32, 1#32, 2#32, 0#32⟩) := by decide

/-- V-LOG-5: the immediate is zero-extended. -/
theorem test_ori_in_ex :
    seen State.exmem (exec (.ori 1#5 0#5 0xFFF#12) (inEx 0xFFF06093#32 0#32 0xFFFFFFFF#32)) =
      some (.record ⟨0xFFF06093#32, 0x00000FFF#32, 0xFFFFFFFF#32, false⟩) := by decide

/-- 30_encoding.md R107: B is read from bits 24:20, here x31. -/
theorem test_ori_in_id :
    seen State.idex (exec (.ori 1#5 0#5 0xFFF#12) (inId 0xFFF06093#32)) =
      some (.record ⟨0xFFF06093#32, 0x84#32, 0x80#32, 0#32, 0xFFFFFFFF#32, 0xFFFFFFFF#32⟩) := by decide

/-- 42_load_store.md R200: the last admitted word, and 0 past it. -/
theorem test_lw_in_mem :
    [0x7C#32, 0x7D#32, 0x80#32, 0xFFFFFFFC#32].map (fun alu =>
      seen State.memwb (exec (.lw 1#5 0#5 0x07C#12) (inMem 0x07C02083#32 alu 0#32))) =
    [some (.record ⟨0x07C02083#32, 0xDEADBEEF#32, 0x7C#32⟩), some (.record ⟨0x07C02083#32, 0#32, 0x7D#32⟩),
      some (.record ⟨0x07C02083#32, 0#32, 0x80#32⟩), some (.record ⟨0x07C02083#32, 0#32, 0xFFFFFFFC#32⟩)] := by
  decide

theorem test_lw_in_wb :
    seen (fun t => readReg t.rf 1#5) (exec (.lw 1#5 0#5 0x07C#12) (inWb 0x07C02083#32 9#32 7#32)) = some 9#32 := by
  decide

/-- 42_load_store.md R201: the bytes are little-endian; 0x7E and 0x80 are dropped. -/
theorem test_sw_in_mem :
    [0x00#32, 0x7E#32, 0x80#32].map (fun alu =>
      seen State.dmem (exec (.sw 5#5 0#5 0#12) { inMem 0x00502023#32 alu 0xDEADBE00#32 with dmem := [] })) =
    [some [(1, 0xBE#8), (2, 0xAD#8), (3, 0xDE#8)], some [], some []] := by decide

theorem test_sw_in_wb :
    seen (fun t => (t.rf, t.wbr)) (exec (.sw 5#5 0#5 0x01C#12) (inWb 0x00502E23#32 0#32 0x1C#32)) =
      some ((fetching 0#32).rf, .record ⟨0x00502E23#32, 28#5, 0x1C#32, false⟩) := by decide

/-- 43_branch.md R220: the comparison is signed. -/
theorem test_blt_in_ex :
    [(0xFFFFFFFF#32, 0#32), (0x7FFFFFFF#32, 0x80000000#32), (1#32, 1#32)].map (fun p =>
      seen (fun t => (t.exmem, t.pc)) (exec (.blt 1#5 2#5 8#13) (inEx 0x0020C463#32 p.1 p.2))) =
    [some (.record ⟨0x0020C463#32, 0x88#32, 0#32, true⟩, 0x88#32),
      some (.record ⟨0x0020C463#32, 0x88#32, 0x80000000#32, false⟩, 0x84#32),
      some (.record ⟨0x0020C463#32, 0x88#32, 1#32, false⟩, 0x84#32)] := by decide

/-- 43_branch.md R221: equal operands are taken, backwards past 0x80. -/
theorem test_bge_in_ex :
    [(0#32, 0#32), (0x80000000#32, 0x7FFFFFFF#32)].map (fun p =>
      seen (fun t => (t.exmem, t.pc, t.ifid)) (exec (.bge 0#5 0#5 0x1FF8#13) (inEx 0xFE005CE3#32 p.1 p.2))) =
    [some (.record ⟨0xFE005CE3#32, 0x78#32, 0#32, true⟩, 0x78#32, .bubble),
      some (.record ⟨0xFE005CE3#32, 0x78#32, 0x7FFFFFFF#32, false⟩, 0x84#32,
        .record ⟨0xFE005CE3#32, 0x84#32, 0x80#32⟩)] := by decide

/-- 40_pipeline.md R136. -/
theorem test_illegal_in_ex :
    seen State.exmem (exec (.word 0x00500093#32) (inEx 0x00500093#32 6#32 7#32)) =
      some (.record ⟨0x00500093#32, 0#32, 7#32, false⟩) := by decide

/-- 44_assembler.md R257: a raw word runs as the class that its bits select. -/
theorem test_word_of_a_class_runs :
    seen State.exmem (exec (.word 0x0020F1B3#32) (inEx 0x0020F1B3#32 6#32 3#32)) =
      some (.record ⟨0x0020F1B3#32, 2#32, 3#32, false⟩) := by decide

/-- Two words in flight: SW in MEM, LW to the same word in EX; the store lands and the load goes on (95, W4). -/
theorem test_step_of_two_words :
    seen (fun t => (memRead t.dmem 0#32, t.exmem, t.cycle))
      (step { inEx 0x00002303#32 0#32 0#32 with
        exmem := .record ⟨0x00502023#32, 0#32, 0xDEADBEEF#32, false⟩, cycle := 3 }) =
    some (0xDEADBEEF#32, .record ⟨0x00002303#32, 0#32, 0#32, false⟩, 4) := by decide

/-- The instruction that `withFetchWord` places in the reset state is fetched by the next cycle, which is its own. -/
theorem test_placed_word :
    seen State.ifid (step (State.reset.withFetchWord 32 0x0020F1B3)) =
      some (.record ⟨0x0020F1B3#32, 0x84#32, 0x80#32⟩) := by decide

/-! ### The assembler (95_test_vectors.md V-ASM) -/

/-- The words of a source, or the line and kind of its error. -/
def assembled (lines : List String) : List Word ⊕ (Nat × ErrorKind) :=
  match assembleText lines with
  | .ok p => .inl (p.map Prod.snd)
  | .error e => .inr (e.line, e.kind)

/-- V-ASM-1, 3, 4, 9, 14, 26. -/
theorem test_asm_forms :
    [assembled ["AND x3, x1, x2"], assembled ["LW x4, 0"], assembled ["SW x3, -2048(x2)"],
      assembled ["LW x1, 8 ( x2 )"], assembled ["BLT x1, x2, -4096"], assembled ["ori x1 , x0 , 5 # c"]] =
    [.inl [0x0020F1B3#32], .inl [0x00002203#32], .inl [0x80312023#32], .inl [0x00812083#32], .inl [0x8020C063#32],
      .inl [0x00506093#32]] := by decide

/-- V-ASM-6, 10, 16, 18, 20, 21. -/
theorem test_asm_errors :
    [assembled ["ORI x1, x0, 0xFFF"], assembled ["LW x1, lbl"], assembled ["BGE x1, x2, 7"],
      assembled ["BLT x1, x2, 1x"], assembled [".WORD 4294967296"], assembled ["ADD x1, x2, x3"]] =
    [.inr (1, .rangeError), .inr (1, .syntaxError), .inr (1, .rangeError), .inr (1, .syntaxError),
      .inr (1, .rangeError), .inr (1, .syntaxError)] := by decide

/-- V-ASM-22 to V-ASM-25, one of each, and V-ASM-28. -/
theorem test_asm_syntax_errors :
    [assembled ["ORI x1, x0, 5,"], assembled ["ORI x1,,5"], assembled ["ORI x01, x0, 5"],
      assembled ["ORI x1, x0, -0x10"], assembled ["a: b: ORI x1, x0, 5"]].all
      (fun r => r == .inr (1, .syntaxError)) = true := by decide

/-- V-ASM-32 and V-ASM-35. -/
theorem test_asm_labels :
    assembled ["BGE x0, x0, fwd", "ORI x1, x0, 1", "fwd: ORI x2, x0, 2"] =
      .inl [0x00005463#32, 0x00106093#32, 0x00206113#32] ∧
    assembled ["top:", "  # c", "top2: BGE x0, x0, top", "BGE x0, x0, top2"] =
      .inl [0x00005063#32, 0xFE005EE3#32] := by decide

/-- V-ASM-33 and V-ASM-34: pass 2 reports the first line, and pass 1 comes before pass 2. -/
theorem test_asm_error_order :
    assembled ["BLT x1, x2, 9999", "FOO x1"] = .inr (1, .rangeError) ∧
    assembled ["ORI x1, x0, 9999", "x: BLT x1", "x:"] = .inr (3, .syntaxError) := by decide

/-- V-ASM-30 and V-ASM-31, with a short instruction line. -/
theorem test_asm_capacity :
    (match assembled (List.replicate 32 ".WORD 1" ++ ["end:"]) with | .inl p => p.length | .inr _ => 0) = 32 ∧
    assembled (List.replicate 33 ".WORD 1") = .inr (33, .rangeError) := by decide

/-- V-ASM-37 and V-ASM-36: a failed assemble leaves the empty program, which is COMPLETE after reset. -/
theorem test_failed_assemble :
    (hostAssemble [['F']] (fetching 1#32)).program = [] ∧
    status (hostReset (hostAssemble [['F']] (fetching 1#32))) = .complete := by decide

/-- 40_pipeline.md R150: an index outside 0 to 31 is refused. -/
theorem test_peek_outside_is_refused :
    [-1, 32].all (fun i => match peekRegister i State.reset with
      | .refused (.noSuchRegister j) => j == i
      | .refused (.notModelled _) => false
      | .next _ => false
      | .fault _ => false) = true := by decide

/-! ### Witnesses: for each statement with hypotheses, a case that meets them -/

/-- The next state of a step, as `step_eq` gives it. -/
theorem steps_on (s : State) : ∃ t, step s = .next t := ⟨_, step_eq s⟩

/-- A stage that holds a Bubble holds no taken branch. -/
theorem not_taken_of_bubble {s : State} (h : s.idex = .bubble) : ¬TakenIn s := by
  rintro ⟨d, hd, -⟩
  rw [h] at hd
  cases hd

theorem witness_ResetStateMeetsTheInvariant : State.reset.program = [] := rfl

/-- Both sides of StatusAfterReset. -/
theorem witness_StatusAfterReset :
    status (hostReset State.reset) = .complete ∧ status (hostReset (fetching 0#32)) = .running := by decide

/-- Operands at the ends of their ranges, of every constructor. -/
theorem witness_DecodeOfEncode :
    [Instr.and 31#5 0#5 31#5 0x7F#7, .or 0#5 31#5 0#5 0#7, .ori 31#5 0#5 0x800#12, .lw 0#5 31#5 0x7FF#12,
      .sw 31#5 31#5 0x800#12, .blt 31#5 0#5 0x1000#13, .bge 0#5 31#5 0x0FFE#13, .word 0#32].all
      Instr.wellFormed = true := by decide

/-- The ends of both ranges. -/
theorem witness_OperandsSurviveEncoding :
    ((-2048 : Int) ≤ -2048 ∧ (-2048 : Int) ≤ 2047) ∧ ((-2048 : Int) ≤ 2047 ∧ (2047 : Int) ≤ 2047) ∧
    ((-4096 : Int) ≤ -4096 ∧ (-4096 : Int) ≤ 4094 ∧ (-4096 : Int) % 2 = 0) ∧
    ((-4096 : Int) ≤ 4094 ∧ (4094 : Int) ≤ 4094 ∧ (4094 : Int) % 2 = 0) := by decide

/-- A row that a word matches, a word that matches none, and two words that differ outside opcode and funct3. -/
theorem witness_ClassIsTheOneMatchingRow :
    (⟨.bge, 0x00005063#32, 0x0000707F#32⟩ : OpcodeRow) ∈ opcodeMap ∧
    0x7E41DFE3#32 &&& 0x0000707F#32 = 0x00005063#32 ∧
    (∀ row ∈ opcodeMap, 0x00000033#32 &&& row.mask ≠ row.value) ∧
    opcodeOf 0x0020F1B3#32 = opcodeOf 0x4020F1B3#32 ∧ funct3Of 0x0020F1B3#32 = funct3Of 0x4020F1B3#32 := by decide

/-- The smallest offset, and a word of class ILLEGAL with the B-format opcode. -/
theorem witness_BranchImmediateIsEvenAndInRange :
    opcodeOf 0x8020C063#32 = 0b1100011#7 ∧ opcodeOf 0x00001063#32 = 0b1100011#7 := by decide

/-- A running machine with a word in every stage and one to fetch; no branch is taken. -/
def busy : State :=
  { inEx 0x0020F1B3#32 6#32 3#32 with
    ifid := .record ⟨0x0020E1B3#32, 0x88#32, 0x84#32⟩
    exmem := .record ⟨0x00502023#32, 0x7C#32, 0xDEADBEEF#32, false⟩
    memwb := .record ⟨0x00506093#32, 0#32, 5#32⟩ }

/-- The same with a taken BLT in ID/EX. -/
def branching : State := { busy with idex := (inEx 0x0020C463#32 1#32 2#32).idex }

/-- The same with a BLT in ID/EX that is not taken. -/
def notBranching : State := { busy with idex := (inEx 0x0020C463#32 2#32 1#32).idex }

theorem branching_taken : TakenIn branching := ⟨_, rfl, .inl ⟨by decide, by decide⟩⟩

theorem busy_not_taken : ¬TakenIn busy := by
  rintro ⟨d, h, ht⟩
  cases h
  exact absurd ht (by simp only [Taken]; decide)

theorem witness_StepRunsTheInstructionInEachStage :
    status busy = .running ∧ busy.memwb ≠ .bubble ∧ busy.exmem ≠ .bubble ∧ busy.idex ≠ .bubble ∧
    busy.ifid ≠ .bubble ∧ fetchWord busy.program busy.pc ≠ none ∧
    seen (fun t => redirect t.exmem) (step busy) = some none ∧
    seen (fun t => redirect t.exmem) (step branching) = some (some 0x88#32) ∧
    status (fetching 0#32) = .running ∧ (fetching 0#32).memwb = .bubble ∧
    status (inWb 0#32 0#32 0#32) = .running := by decide

theorem witness_StepOfALoneInstructionIsExec :
    status (inEx 0x0020F1B3#32 6#32 3#32) = .running ∧
    OnlyInFlight (.and 3#5 1#5 2#5 0#7) (inEx 0x0020F1B3#32 6#32 3#32) := by
  refine ⟨by decide, ?_, ?_, ?_, ?_, ?_⟩
  · rintro r h; cases h
  · rintro r h; cases h; decide
  · rintro r h; cases h
  · rintro r h; cases h
  · rintro w h
    have hw : fetchWord (inEx 0x0020F1B3#32 6#32 3#32).program (inEx 0x0020F1B3#32 6#32 3#32).pc =
        some 0x0020F1B3#32 := by decide
    cases hw.symm.trans h
    decide

theorem witness_StepWhenCompleteChangesNothing : status State.reset = .complete := by decide

theorem witness_CycleCounterCountsSteps :
    (status busy = .running ∧ ∃ t, step busy = .next t) ∧
    (status State.reset = .complete ∧ ∃ t, step State.reset = .next t) :=
  ⟨⟨by decide, steps_on _⟩, by decide, steps_on _⟩

theorem witness_WordsMoveOneStageOn :
    (status busy = .running ∧ (∃ t, step busy = .next t) ∧ ¬TakenIn busy) ∧
    (status branching = .running ∧ (∃ t, step branching = .next t) ∧ TakenIn branching) :=
  ⟨⟨by decide, steps_on _, busy_not_taken⟩, by decide, steps_on _, branching_taken⟩

/-- A state in mid-run that meets the invariant: V-P-1 after its first cycle. -/
theorem witness_EveryStepKeepsTheInvariant :
    Invariant { State.reset with
      program := [(0x80, 0x00506093#32)], ifid := .record ⟨0x00506093#32, 0x84#32, 0x80#32⟩,
      pc := 0x84#32, cycle := 1 } ∧
    ∃ t, step { State.reset with
      program := [(0x80, 0x00506093#32)], ifid := .record ⟨0x00506093#32, 0x84#32, 0x80#32⟩,
      pc := 0x84#32, cycle := 1 } = .next t := by
  refine ⟨⟨by decide, by decide, by decide, by decide, ?_, ?_, ?_, ?_, ?_⟩, steps_on _⟩
  · rintro f h; cases h; decide
  · rintro d h; cases h
  · rintro e h; cases h
  · rintro m h; cases h
  · rintro r h; cases h

theorem witness_StepsKeepTheProgram : ∃ t, Runs 7 busy t := runs_total 7 busy

/-! A word of each instruction in each stage: the clauses of the statements `…CompletesInEveryStage`. -/

theorem witness_AndCompletesInEveryStage :
    decode 0x0020F1B3#32 = .and 3#5 1#5 2#5 0#7 ∧ (inId 0x0020F1B3#32).ifid ≠ .bubble ∧
    (inEx 0x0020F1B3#32 6#32 3#32).idex ≠ .bubble ∧ (inMem 0x0020F1B3#32 2#32 3#32).exmem ≠ .bubble ∧
    (inWb 0x0020F1B3#32 0#32 2#32).memwb ≠ .bubble ∧ (inEx 0x0020F1B3#32 6#32 3#32).memwb = .bubble ∧
    seen (fun t => redirect t.exmem) (exec (.and 3#5 1#5 2#5 0#7) (inId 0x0020F1B3#32)) = some none ∧
    fetchWord (inId 0x0020F1B3#32).program (inId 0x0020F1B3#32).pc = some 0x0020F1B3#32 := by decide

theorem witness_OrCompletesInEveryStage :
    decode 0x0020E1B3#32 = .or 3#5 1#5 2#5 0#7 ∧ (inId 0x0020E1B3#32).ifid ≠ .bubble ∧
    (inEx 0x0020E1B3#32 6#32 3#32).idex ≠ .bubble ∧ (inMem 0x0020E1B3#32 2#32 3#32).exmem ≠ .bubble ∧
    (inWb 0x0020E1B3#32 0#32 2#32).memwb ≠ .bubble ∧
    fetchWord (inId 0x0020E1B3#32).program (inId 0x0020E1B3#32).pc = some 0x0020E1B3#32 := by decide

/-- Destination x0 among them. -/
theorem witness_OriCompletesInEveryStage :
    decode 0xFFF06093#32 = .ori 1#5 0#5 0xFFF#12 ∧ decode 0x00506013#32 = .ori 0#5 0#5 5#12 ∧
    (inId 0xFFF06093#32).ifid ≠ .bubble ∧ (inEx 0xFFF06093#32 0#32 0#32).idex ≠ .bubble ∧
    (inMem 0xFFF06093#32 2#32 3#32).exmem ≠ .bubble ∧ (inWb 0x00506013#32 0#32 5#32).memwb ≠ .bubble ∧
    fetchWord (inId 0xFFF06093#32).program (inId 0xFFF06093#32).pc = some 0xFFF06093#32 := by decide

/-- The last admitted word, and the first address past it. -/
theorem witness_LwCompletesInEveryStage :
    decode 0x07C02083#32 = .lw 1#5 0#5 0x07C#12 ∧ (inId 0x07C02083#32).ifid ≠ .bubble ∧
    (inEx 0x07C02083#32 0#32 0#32).idex ≠ .bubble ∧ (inMem 0x07C02083#32 0x7C#32 0#32).exmem ≠ .bubble ∧
    (inWb 0x07C02083#32 9#32 7#32).memwb ≠ .bubble ∧ dataAdmit 0x7C#32 = true ∧ dataAdmit 0x80#32 = false ∧
    fetchWord (inId 0x07C02083#32).program (inId 0x07C02083#32).pc = some 0x07C02083#32 := by decide

/-- An admitted store at the last word, and the bytes on both sides of it; stores that are dropped. -/
theorem witness_SwCompletesInEveryStage :
    decode 0x06102E23#32 = .sw 1#5 0#5 0x07C#12 ∧ (inId 0x06102E23#32).ifid ≠ .bubble ∧
    (inEx 0x06102E23#32 0#32 1#32).idex ≠ .bubble ∧
    (inMem 0x06102E23#32 0x7C#32 1#32).exmem = .record ⟨0x06102E23#32, 0x7C#32, 1#32, false⟩ ∧
    (inMem 0x06102E23#32 0x7C#32 1#32).dmem.wf ∧ dataAdmit 0x7C#32 = true ∧
    ¬(dataAdmit 0x7C#32 = true ∧ (0x7C#32).toNat ≤ 0x7B ∧ 0x7B < (0x7C#32).toNat + 4) ∧
    ¬(dataAdmit 0x7D#32 = true ∧ (0x7D#32).toNat ≤ 0x7D ∧ 0x7D < (0x7D#32).toNat + 4) ∧
    (inId 0x06102E23#32).exmem = .bubble ∧ (inWb 0x06102E23#32 0#32 0x7C#32).memwb ≠ .bubble ∧
    fetchWord (inId 0x06102E23#32).program (inId 0x06102E23#32).pc = some 0x06102E23#32 := by decide

/-- The operands on both sides of signed less, at the ends of the range. -/
theorem witness_BltCompletesInEveryStage :
    decode 0x0020C463#32 = .blt 1#5 2#5 8#13 ∧ (inId 0x0020C463#32).ifid ≠ .bubble ∧
    (inEx 0x0020C463#32 0x80000000#32 0x7FFFFFFF#32).idex ≠ .bubble ∧
    (0x80000000#32).toInt < (0x7FFFFFFF#32).toInt ∧ ¬(1#32).toInt < (1#32).toInt ∧
    seen (fun t => redirect t.exmem) (exec (.blt 1#5 2#5 8#13) (inEx 0x0020C463#32 0x80000000#32 0x7FFFFFFF#32)) =
      some (some 0x88#32) ∧
    seen (fun t => redirect t.exmem) (exec (.blt 1#5 2#5 8#13) (inEx 0x0020C463#32 1#32 1#32)) = some none ∧
    (inMem 0x0020C463#32 0x88#32 0#32).exmem ≠ .bubble ∧ (inWb 0x0020C463#32 0#32 0x88#32).memwb ≠ .bubble ∧
    fetchWord (inId 0x0020C463#32).program (inId 0x0020C463#32).pc = some 0x0020C463#32 := by decide

theorem witness_BgeCompletesInEveryStage :
    decode 0xFE005CE3#32 = .bge 0#5 0#5 0x1FF8#13 ∧ (inId 0xFE005CE3#32).ifid ≠ .bubble ∧
    (inEx 0xFE005CE3#32 1#32 1#32).idex ≠ .bubble ∧ (1#32).toInt ≥ (1#32).toInt ∧
    ¬(0x80000000#32).toInt ≥ (0x7FFFFFFF#32).toInt ∧
    seen (fun t => redirect t.exmem) (exec (.bge 0#5 0#5 0x1FF8#13) (inEx 0xFE005CE3#32 1#32 1#32)) =
      some (some 0x78#32) ∧
    seen (fun t => redirect t.exmem) (exec (.bge 0#5 0#5 0x1FF8#13) (inEx 0xFE005CE3#32 0x80000000#32 0#32)) =
      some none ∧
    (inMem 0xFE005CE3#32 0x78#32 0#32).exmem ≠ .bubble ∧ (inWb 0xFE005CE3#32 0#32 0x78#32).memwb ≠ .bubble ∧
    fetchWord (inId 0xFE005CE3#32).program (inId 0xFE005CE3#32).pc = some 0xFE005CE3#32 := by decide

theorem witness_IllegalWordCompletesInEveryStage :
    classOf 0x00500093#32 = .illegal ∧ decode 0x00500093#32 = .word 0x00500093#32 ∧
    (inId 0x00500093#32).ifid ≠ .bubble ∧ (inEx 0x00500093#32 6#32 7#32).idex ≠ .bubble ∧
    (inMem 0x00500093#32 0#32 7#32).exmem ≠ .bubble ∧ (inWb 0x00500093#32 0#32 0#32).memwb ≠ .bubble ∧
    fetchWord (inId 0x00500093#32).program (inId 0x00500093#32).pc = some 0x00500093#32 := by decide

/-! From fetch to write-back. -/

theorem fetching_drained (w : Word) : Drained (fetching w) := ⟨rfl, rfl, rfl, rfl⟩

theorem witness_LogicalResultAfterFiveCycles :
    Drained (fetching 0x0020F1B3#32) ∧
    [0x0020F1B3#32, 0x0020E1B3#32, 0xFFF06093#32].all
      (fun w => fetchWord (fetching w).program (fetching w).pc == some w) = true ∧
    decode 0x0020F1B3#32 = .and 3#5 1#5 2#5 0#7 ∧ decode 0x0020E1B3#32 = .or 3#5 1#5 2#5 0#7 ∧
    decode 0xFFF06093#32 = .ori 1#5 0#5 0xFFF#12 := ⟨fetching_drained _, by decide⟩

theorem witness_LoadedWordAfterFiveCycles :
    Drained (fetching 0x07C02083#32) ∧
    fetchWord (fetching 0x07C02083#32).program (fetching 0x07C02083#32).pc = some 0x07C02083#32 ∧
    decode 0x07C02083#32 = .lw 1#5 0#5 0x07C#12 := ⟨fetching_drained _, by decide⟩

/-- The store of x1 to 0x7C; the byte below it is outside. -/
theorem witness_StoredWordAfterFourCycles :
    Drained (fetching 0x06102E23#32) ∧
    fetchWord (fetching 0x06102E23#32).program (fetching 0x06102E23#32).pc = some 0x06102E23#32 ∧
    decode 0x06102E23#32 = .sw 1#5 0#5 0x07C#12 ∧
    dataAdmit (readReg (fetching 0x06102E23#32).rf 0#5 + (0x07C#12).signExtend 32) = true :=
  ⟨fetching_drained _, by decide⟩

/-- BLT taken (x1 = 1, x2 = 2), and BGE of the same operands not taken, with a word behind it. -/
theorem witness_BranchDecidesInThreeCycles :
    (Drained (fetching 0x0020C463#32) ∧
      fetchWord (fetching 0x0020C463#32).program (fetching 0x0020C463#32).pc = some 0x0020C463#32 ∧
      decode 0x0020C463#32 = .blt 1#5 2#5 8#13 ∧
      true = decide ((readReg (fetching 0x0020C463#32).rf 1#5).toInt < (readReg (fetching 0x0020C463#32).rf 2#5).toInt)) ∧
    (let s := { fetching 0x0020D463#32 with program := [(0x80, 0x0020D463#32), (0x84, 0x00506093#32)] }
     Drained s ∧ fetchWord s.program s.pc = some 0x0020D463#32 ∧ decode 0x0020D463#32 = .bge 1#5 2#5 8#13 ∧
      false = decide ((readReg s.rf 1#5).toInt ≥ (readReg s.rf 2#5).toInt) ∧
      fetchWord s.program (s.pc + 4#32) = some 0x00506093#32) :=
  ⟨⟨fetching_drained _, by decide⟩, ⟨rfl, rfl, rfl, rfl⟩, by decide⟩

/-! Branches, hazards, memory. -/

/-- A taken branch to 0x88, where there is a word. -/
theorem witness_TakenBranchFreezesThePipeline :
    ∃ d, branching.idex = .record d ∧ Taken d ∧ d.pc + d.imm = 0x88#32 ∧
      fetchWord [(0x80, 0x0020C463#32), (0x88, 0x00506093#32)] (d.pc + d.imm) = some 0x00506093#32 :=
  ⟨_, rfl, .inl ⟨by decide, by decide⟩, by decide, by decide⟩

/-- Taken; not taken with a word to fetch; not taken with none. -/
theorem witness_NextValueOfPc :
    (status branching = .running ∧ (∃ t, step branching = .next t) ∧ TakenIn branching) ∧
    (status busy = .running ∧ (∃ t, step busy = .next t) ∧ ¬TakenIn busy ∧
      fetchWord busy.program busy.pc ≠ none) ∧
    (status (inWb 0#32 0#32 0#32) = .running ∧ ¬TakenIn (inWb 0#32 0#32 0#32) ∧
      status { inWb 0#32 0#32 0#32 with pc := 0x84#32 } = .running ∧
      fetchWord (inWb 0#32 0#32 0#32).program 0x84#32 = none) :=
  ⟨⟨by decide, steps_on _, branching_taken⟩, ⟨by decide, steps_on _, busy_not_taken, by decide⟩,
    by decide, not_taken_of_bubble rfl, by decide, by decide⟩

/-- x1 is written back while the word in IF/ID reads it. -/
theorem witness_DecodeReadsTheOldValue :
    ∃ m f, busy.memwb = .record m ∧ busy.ifid = .record f ∧ writesRegister (classOf m.ir) = true ∧
      rdOf m.ir ≠ 0#5 ∧ ¬TakenIn busy ∧ rs1Of f.ir = rdOf m.ir ∧ ∃ t, step busy = .next t :=
  ⟨_, _, rfl, rfl, by decide, by decide, busy_not_taken, by decide, steps_on _⟩

theorem witness_ResultIsVisibleFromTheFourthSlotOn :
    (∃ f, busy.ifid = .record f ∧ writesRegister (classOf f.ir) = true ∧ rdOf f.ir ≠ 0#5) ∧ ¬TakenIn busy ∧
    (∃ t, Runs 3 busy t) ∧ ∃ t, Runs 3 { busy with ifid := .bubble } t :=
  ⟨⟨_, rfl, by decide, by decide⟩, busy_not_taken, runs_total 3 _, runs_total 3 _⟩

/-- OR x3, x1, x2 in IF/ID, with three NOPs and OR x5, x3, x3 to fetch behind it. -/
def fourApart : State :=
  { inId 0x0020E1B3#32 with
    pc := 0x84#32
    program := [(0x80, 0x0020E1B3#32), (0x84, 0x00006013#32), (0x88, 0x00006013#32), (0x8C, 0x00006013#32),
      (0x90, 0x0031E2B3#32)] }

/-- The state after one step. -/
def after (s : State) : State := if status s = .complete then s else cycleState s

/-- Four fetch slots on, x3 is written, a NOP stands in MEM/WB, and the word in IF/ID reads x3. -/
theorem witness_ResultIsVisible_later :
    (∃ f, fourApart.ifid = .record f ∧ writesRegister (classOf f.ir) = true ∧ rdOf f.ir = 3#5) ∧
    ¬TakenIn fourApart ∧ ∃ t, Runs 4 fourApart t ∧ (∃ u, Runs 1 t u) ∧
      (∀ (j : Nat) (v : State), j < 1 → Runs j t v → ¬WritesBack 3#5 v) ∧
      (∃ g, t.ifid = .record g ∧ rs1Of g.ir = 3#5 ∧ rs2Of g.ir = 3#5) ∧ ¬TakenIn t := by
  refine ⟨⟨_, rfl, by decide, by decide⟩, not_taken_of_bubble rfl, after (after (after (after fourApart))),
    ⟨_, step_eq _, _, step_eq _, _, step_eq _, _, step_eq _, rfl⟩, runs_total 1 _, fun j v hj hv => ?_,
    ⟨⟨0x0031E2B3#32, 0x94#32, 0x90#32⟩, by decide, by decide, by decide⟩, ?_⟩
  · obtain rfl : j = 0 := by omega
    cases hv
    rintro ⟨m, h, -, hrd⟩
    have hm : (after (after (after (after fourApart)))).memwb = .record ⟨0x00006013#32, 0#32, 0#32⟩ := by decide
    cases hm.symm.trans h
    exact absurd hrd (by decide)
  · rintro ⟨d, h, ht⟩
    have hd : (after (after (after (after fourApart)))).idex =
        .record ⟨0x00006013#32, 0x90#32, 0x8C#32, 0#32, 0#32, 0#32⟩ := by decide
    cases hd.symm.trans h
    exact absurd ht (by simp only [Taken]; decide)

/-- SW of 0xDEADBEEF to 0x7C, with LW from 0x7C behind it. -/
theorem witness_LoadRightBehindAStore :
    ∃ e d, { busy with idex := (inEx 0x07C02083#32 0#32 0#32).idex }.exmem = .record e ∧
      { busy with idex := (inEx 0x07C02083#32 0#32 0#32).idex }.idex = .record d ∧ busy.dmem.wf ∧
      classOf e.ir = .sw ∧ classOf d.ir = .lw ∧ d.a + d.imm = e.aluOutput ∧ dataAdmit e.aluOutput = true :=
  ⟨_, _, rfl, rfl, by decide, by decide, by decide, by decide, by decide⟩

/-- `busy` writes 5 to x1, which was 1. -/
theorem witness_RegistersChangeOnlyInWriteBack :
    ∃ t, step busy = .next t ∧ readReg t.rf 1#5 ≠ readReg busy.rf 1#5 := ⟨_, step_eq _, by decide⟩

/-- `busy` stores to 0x7C. -/
theorem witness_MemoryChangesOnlyByAStore :
    ∃ t, step busy = .next t ∧ readByte t.dmem 0x7F ≠ readByte busy.dmem 0x7F := ⟨_, step_eq _, by decide⟩

/-- An ILLEGAL word in each stage, and one fetched. -/
def illegalBusy : State :=
  { inEx 0x00500093#32 6#32 7#32 with
    ifid := .record ⟨0x00500093#32, 0x84#32, 0x80#32⟩
    exmem := .record ⟨0x00500093#32, 0#32, 7#32, false⟩
    memwb := .record ⟨0x00500093#32, 0#32, 0#32⟩ }

theorem witness_IllegalWordHasNoEffect :
    status illegalBusy = .running ∧ classOf 0x00500093#32 = .illegal ∧
    fetchWord illegalBusy.program illegalBusy.pc = some 0x00500093#32 ∧ ¬TakenIn illegalBusy := by
  refine ⟨by decide, by decide, by decide, ?_⟩
  rintro ⟨d, h, ht⟩
  cases h
  exact absurd ht (by simp only [Taken]; decide)

/-- The first address past DATA, and a misaligned one inside it. -/
theorem witness_UnadmittedAccessIsSilent :
    (∃ e, (inMem 0x00502023#32 0x80#32 1#32).exmem = .record e ∧ dataAdmit e.aluOutput = false) ∧
    ∃ e, (inMem 0x07C02083#32 0x7D#32 0#32).exmem = .record e ∧ dataAdmit e.aluOutput = false :=
  ⟨⟨_, rfl, by decide⟩, _, rfl, by decide⟩

/-- The run of a launch with a poke. -/
theorem witness_RegisterZeroIsHardwired :
    ∃ t, Runs 5 (launch [['.', 'W', 'O', 'R', 'D', ' ', '0']] [(0#32, 1#32)] State.reset) t := runs_total 5 _

theorem witness_WordAccessRules :
    dataAdmit 0x7C#32 = true ∧ dataAdmit 0x7D#32 = false ∧ dataAdmit 0x80#32 = false ∧
    (inMem 0#32 0#32 0#32).dmem.wf ∧ (0x7B < (0x7C#32).toNat ∨ (0x7C#32).toNat + 4 ≤ 0x7B) ∧
    (0x80 < (0x7C#32).toNat ∨ (0x7C#32).toNat + 4 ≤ 0x80) := by decide

/-- A COMPLETE machine with a word at PROG_START: reset and an assemble that maps PC make it RUNNING. -/
theorem witness_CompleteIsTerminal :
    let s := { fetching 0#32 with pc := 0x84#32 }
    status State.reset = .complete ∧ status s = .complete ∧ fetchWord s.program 0x80#32 ≠ none ∧
    status (hostReset s) = .running ∧
    status (hostAssemble [['.', 'W', 'O', 'R', 'D', ' ', '0']] State.reset) = .running ∧
    (∃ t reply, hostDo (.pokeMemoryWord 0#32 1#32) s = .next (t, reply)) ∧
    (∃ t reply, hostDo (.peekMemoryWord 0#32) s = .next (t, reply)) ∧
    ∃ t reply, hostDo (.peekRegister 1) s = .next (t, reply) :=
  ⟨by decide, by decide, by decide, by decide, by decide, ⟨_, _, rfl⟩, ⟨_, _, rfl⟩, _, _, rfl⟩

/-- A run that ends at COMPLETE before its cap (k = 0 < cap), and one that the cap cuts (k = cap). -/
theorem witness_RunStopsAtCompleteOrTheCap :
    (match hostRun 3 State.reset with | .next t => status t == .complete | .fault _ => false | .refused _ => false) = true ∧
    (match hostRun 1 (fetching 0#32) with
      | .next t => status t == .running && t.cycle == 1 | .fault _ => false | .refused _ => false) = true := by decide

/-- V-P-1: one word. -/
theorem witness_StraightLineProgramTakesNPlusFourCycles :
    (∀ k, k < 1 → ∃ w, fetchWord (fetching 0x00506093#32).program (BitVec.ofNat 32 (0x80 + 4 * k)) = some w ∧
      NoBranch w) ∧
    fetchWord (fetching 0x00506093#32).program (BitVec.ofNat 32 (0x80 + 4 * 1)) = none ∧
    ∃ t, Runs 4 (hostReset (fetching 0x00506093#32)) t := by
  refine ⟨fun k hk => ?_, by decide, runs_total 4 _⟩
  obtain rfl : k = 0 := by omega
  exact ⟨0x00506093#32, by decide, by simp only [NoBranch]; decide⟩

theorem witness_PeekRegisterReadsOneRegister : ((-1 : Int) < 0 ∨ (31 : Int) < -1) ∧ ((32 : Int) < 0 ∨ (31 : Int) < 32) := by
  decide

/-- A poke to the last word, one that is dropped, and a LW in MEM of the poked word. -/
theorem witness_PokeThenPeek :
    (inMem 0x07C02083#32 0x7C#32 0#32).dmem.wf ∧ dataAdmit 0x7C#32 = true ∧ dataAdmit 0x80#32 = false ∧
    (inMem 0x07C02083#32 0x7C#32 0#32).exmem = .record ⟨0x07C02083#32, 0x7C#32, 0#32, false⟩ ∧
    classOf 0x07C02083#32 = .lw := by decide

/-- An operation that is no step, run, reset, poke or assemble, and that answers. -/
theorem witness_WhatTheHostCannotWrite :
    ∃ t reply, hostDo (.peekMemoryWord 0#32) busy = .next (t, reply) := ⟨_, _, rfl⟩

/-! The assembler. -/

theorem witness_AssembleInstallsOrEmpties :
    (match assemble [['.', 'W', 'O', 'R', 'D', ' ', '0']] with | .ok p => p == [(0x80, 0#32)] | .error _ => false) = true ∧
    (match assemble [['F']] with | .ok _ => false | .error e => e.line == 1) = true := by decide

theorem witness_AssembledProgramIsContiguous :
    (match assemble [['#'], ['a', ':'], ['.', 'W', 'O', 'R', 'D', ' ', '0']] with
      | .ok p => p == [(0x80, 0#32)] | .error _ => false) = true := by decide

theorem witness_ErrorNamesASourceLine :
    (match assemble [[], ['F']] with | .ok _ => false | .error e => e.line == 2) = true := by decide

/-- Registers at both ends; an immediate, a memory operand. -/
theorem witness_OperandTextsAssemble :
    parseRegister ['x', '0'] = some 0#5 ∧ parseRegister ['x', '3', '1'] = some 31#5 ∧
    parseImmediate ['-', '2', '0', '4', '8'] = some (-2048) ∧ parseImmediate ['4', '0', '9', '4'] = some 4094 ∧
    parseMemory ['-', '4', '(', 'x', '3', '1', ')'] = some (-4, 31#5) := by decide

/-- A label at the end of a full segment, a branch at each end of it, and a name that is not defined. -/
theorem witness_LabelOffsetIsRelativeToTheBranch :
    isName ['e', 'n', 'd'] = true ∧ programAddress 0x80 = true ∧ programAddress 0xFC = true ∧
    lookupLabel [(['e', 'n', 'd'], 0x100)] ['e', 'n', 'd'] = some 0x100 ∧
    lookupLabel [(['t', 'o', 'p'], 0x80)] ['t', 'o', 'p'] = some 0x80 ∧
    lookupLabel [(['t', 'o', 'p'], 0x80)] ['e', 'n', 'd'] = none := by decide

end Sys2Proof.Tests
end

/-! # Proofs: the state (10_state.md)

What a clock cycle does to the register file, said once: it keeps it, or WB writes one register. -/

namespace Sys2Proof

/-- A decoded word has a destination exactly when its class writes a register, and it is bits 11:7 (R133). -/
theorem dest_decode_eq (w : Word) :
    (decode w).dest = if Machine.writesRegister (classOf w) then some (rdOf w) else none := by
  unfold decode
  cases classOf w <;> rfl

end Sys2Proof

namespace Sys2Proof.Machine

/-! ### The register file -/

/-- WB of a word whose class writes a register. -/
theorem writeBackOut_rf_of_writes {s : State} {m : MemWb} (hm : s.memwb = .record m)
    (hw : writesRegister (classOf m.ir) = true) :
    (writeBackOut s).1 = writeReg s.rf (rdOf m.ir) ((rulesOf (decode m.ir)).select m) := by
  have hdest : (rulesOf (decode m.ir)).dest = some (rdOf m.ir) := by
    rw [dest_rulesOf, dest_decode_eq, if_pos hw]
  rw [writeBackOut_record hm, writeBackUnit_some hdest]

/-- WB of a word whose class writes none. -/
theorem writeBackOut_rf_of_not_writes {s : State} {m : MemWb} (hm : s.memwb = .record m)
    (hw : ¬writesRegister (classOf m.ir) = true) : (writeBackOut s).1 = s.rf := by
  have hdest : (rulesOf (decode m.ir)).dest = none := by
    rw [dest_rulesOf, dest_decode_eq, if_neg hw]
  rw [writeBackOut_record hm, writeBackUnit_none hdest]

/-- What a step can do to the register file: nothing, or the write of the word in MEM/WB (10_state.md R23). -/
theorem step_rf_cases {s t : State} (h : step s = .next t) :
    t.rf = s.rf ∨ ∃ m v, s.memwb = .record m ∧ writesRegister (classOf m.ir) = true ∧
      t.rf = writeReg s.rf (rdOf m.ir) v := by
  obtain ⟨-, rfl⟩ | ⟨-, rfl⟩ := step_cases h
  · exact .inl rfl
  rw [cycleState_rf]
  cases hm : s.memwb with
  | bubble => exact .inl (by rw [writeBackOut_bubble hm])
  | record m =>
    by_cases hw : writesRegister (classOf m.ir) = true
    · exact .inr ⟨m, _, rfl, hw, writeBackOut_rf_of_writes hm hw⟩
    · exact .inl (writeBackOut_rf_of_not_writes hm hw)

/-- No step changes the stored x0. -/
theorem step_rf_zero {s t : State} (h : step s = .next t) : t.rf[0] = s.rf[0] := by
  obtain hrf | ⟨m, v, -, -, hrf⟩ := step_rf_cases h
  · rw [hrf]
  · rw [hrf, writeReg_getElem_zero]

/-! ### Runs -/

/-- What every step keeps, every run keeps. -/
theorem runs_keep {P : State → Prop} (hstep : ∀ s t, step s = .next t → P s → P t) {n : Nat} {s t : State}
    (hrun : Runs n s t) (hs : P s) : P t := by
  induction n generalizing s with
  | zero => exact runs_zero.mp hrun ▸ hs
  | succ n ih =>
    obtain ⟨u, hu, hrest⟩ := runs_succ.mp hrun
    exact ih hrest (hstep s u hu hs)

/-! ### The launch state -/

/-- Pokes leave the register file alone. -/
@[simp] theorem pokeAll_rf (pokes : List (Word × Word)) (s : State) : (pokeAll pokes s).rf = s.rf := by
  induction pokes generalizing s with
  | nil => rfl
  | cons poke rest ih => exact (ih (pokeMemoryWord poke.1 poke.2 s)).trans (poke_rf s poke.1 poke.2)

/-- A launch state's registers are those of reset, whatever the source and the pokes. -/
@[simp] theorem launch_rf (lines : List (List Char)) (pokes : List (Word × Word)) (s : State) :
    (launch lines pokes s).rf = Vector.replicate 32 0#32 := by
  rw [launch, pokeAll_rf, hostReset_rf]

/-! ### The obligations -/

/-- Settles O40: the write-back names its own destination, and a read elsewhere, or of x0, is as before. -/
theorem registersChangeOnlyInWriteBack : Obligations.RegistersChangeOnlyInWriteBack := by
  intro s t r hstep hchanged
  obtain hrf | ⟨m, v, hm, hw, hrf⟩ := step_rf_cases hstep
  · exact absurd (by rw [hrf]) hchanged
  · have hr : r = rdOf m.ir ∧ rdOf m.ir ≠ 0#5 := by
      by_contra hno
      exact hchanged (by rw [hrf, readReg_writeReg, if_neg hno])
    obtain ⟨rfl, hne⟩ := hr
    exact ⟨m, hm, hw, rfl, hne⟩

/-- Settles O44: the stored x0 is 0 at launch, and every step keeps it. -/
theorem registerZeroIsHardwired : Obligations.RegisterZeroIsHardwired := by
  refine ⟨readReg_x0, writeReg_x0, fun lines pokes n s t hrun => ?_⟩
  have hlaunch : (launch lines pokes s).rf[0] = 0#32 := by simp
  exact runs_keep (P := fun u => u.rf[0] = 0#32) (fun u v huv hu => (step_rf_zero huv).trans hu) hrun hlaunch

/-- Settles O3: reset empties every stage and puts PC at PROG_START, so only the fetch there decides. -/
theorem statusAfterReset : Obligations.StatusAfterReset := by
  intro s
  have hcomplete : status (hostReset s) = .complete ↔ fetchWord s.program 0x80#32 = none := by
    simp [status_eq_complete]
  exact ⟨hcomplete, (status_eq_running _).trans (not_congr hcomplete)⟩

end Sys2Proof.Machine

/-! # Proofs: data memory (20_memory.md)

What a clock cycle does to data memory and to the program, said once: MEM loads, stores or leaves memory alone, and
ProgramMemory stays. -/

namespace Sys2Proof.Machine

/-! ### MEM -/

/-- The access of a decoded word: LW alone loads, SW alone stores (40_pipeline.md R134). -/
theorem access_decode (w alu b : Word) (m : Memory) :
    (rulesOf (decode w)).access alu b m =
      (if classOf w = .lw then memRead m alu else 0#32, if classOf w = .sw then memWrite m alu b else m) := by
  unfold decode
  cases classOf w <;> rfl

/-- MEM's output from the class of the word in it. -/
theorem memoryOut_of_class {s : State} {e : ExMem} (he : s.exmem = .record e) :
    memoryOut s =
      (.record ⟨e.ir, if classOf e.ir = .lw then memRead s.dmem e.aluOutput else 0#32, e.aluOutput⟩,
        if classOf e.ir = .sw then memWrite s.dmem e.aluOutput e.b else s.dmem) := by
  rw [memoryOut_record he, memoryUnit_record, access_decode]

/-- What a step can do to data memory: nothing, or the write of the SW in EX/MEM (20_memory.md R63). -/
theorem step_dmem_cases {s t : State} (h : step s = .next t) :
    t.dmem = s.dmem ∨ ∃ e, s.exmem = .record e ∧ classOf e.ir = .sw ∧
      t.dmem = memWrite s.dmem e.aluOutput e.b := by
  obtain ⟨-, rfl⟩ | ⟨-, rfl⟩ := step_cases h
  · exact .inl rfl
  rw [cycleState_dmem]
  cases he : s.exmem with
  | bubble => exact .inl (by rw [memoryOut_bubble he])
  | record e =>
    rw [memoryOut_of_class he]
    by_cases hsw : classOf e.ir = .sw
    · exact .inr ⟨e, rfl, hsw, if_pos hsw⟩
    · exact .inl (if_neg hsw)

/-- A LW in EX/MEM has its word in MEM/WB after the next step. -/
theorem step_memwb_of_lw {s : State} {e : ExMem} (he : s.exmem = .record e) (hlw : classOf e.ir = .lw) :
    ∃ u, step s = .next u ∧ u.memwb = .record ⟨e.ir, memRead s.dmem e.aluOutput, e.aluOutput⟩ := by
  have hrunning : status s = .running := running_of_stage (.inr (.inr (.inl (by simp [he]))))
  refine ⟨cycleState s, by rw [step_eq, if_neg (by simp [hrunning])], ?_⟩
  rw [cycleState_memwb, memoryOut_of_class he, if_pos hlw]

/-! ### ProgramMemory -/

/-- No step changes ProgramMemory (10_state.md R35). -/
theorem step_program {s t : State} (h : step s = .next t) : t.program = s.program := by
  obtain ⟨-, rfl⟩ | ⟨-, rfl⟩ := step_cases h
  · rfl
  · exact cycleState_program s

/-! ### The word write, byte by byte -/

/-- The bytes of an admitted store, least significant lowest (20_memory.md R67). -/
theorem readByte_memWrite_at {m : Memory} (h : m.wf) {a : Word} (ha : dataAdmit a = true) (v : Word) {k : Nat}
    (hk : k < 4) : readByte (memWrite m a v) (a.toNat + k) = v.extractLsb' (8 * k) 8 := by
  rw [readByte_memWrite h, if_pos ⟨ha, by omega, by omega⟩, Nat.add_sub_cancel_left]

/-! ### The host's peek and poke -/

theorem hostDo_peekMemoryWord (s : State) (a : Word) :
    hostDo (.peekMemoryWord a) s = .next (s, .word (memRead s.dmem a)) := rfl

theorem hostDo_pokeMemoryWord (s : State) (a v : Word) :
    hostDo (.pokeMemoryWord a v) s = .next (pokeMemoryWord a v s, .done) := rfl

/-- A poke that is not admitted is dropped (20_memory.md R67, R71). -/
theorem pokeMemoryWord_not_admitted {a : Word} (ha : dataAdmit a = false) (v : Word) (s : State) :
    pokeMemoryWord a v s = s := by
  rw [pokeMemoryWord, memWrite_not_admitted _ ha]

/-! ### The obligations -/

/-- Settles O19: no step changes the program, so no run does. -/
theorem stepsKeepTheProgram : Obligations.StepsKeepTheProgram := fun _ s _ hrun =>
  runs_keep (P := fun u => u.program = s.program) (fun _ _ huv hu => (step_program huv).trans hu) hrun rfl

/-- Settles O41: only a SW in MEM writes, and its write is seen at its own four bytes at most. -/
theorem memoryChangesOnlyByAStore : Obligations.MemoryChangesOnlyByAStore := by
  intro s t a hstep hchanged
  obtain hkept | ⟨e, he, hsw, hwritten⟩ := step_dmem_cases hstep
  · exact absurd (by rw [hkept]) hchanged
  · have hin : dataAdmit e.aluOutput = true ∧ e.aluOutput.toNat ≤ a ∧ a < e.aluOutput.toNat + 4 := by
      by_contra hout
      exact hchanged (by rw [hwritten, readByte_memWrite_outside _ _ _ _ hout])
    exact ⟨e, he, hsw, hin⟩

/-- Settles O45: the read is the definition's, the write is read back byte by byte. -/
theorem wordAccessRules : Obligations.WordAccessRules := by
  refine ⟨fun a => ?admission, fun _ _ => rfl, fun m _ v ha => memWrite_not_admitted m ha v,
    fun m a v hm ha => ?write⟩
  case admission => rw [dataAdmit, Bool.and_eq_true, decide_eq_true_iff, beq_iff_eq, Config.dataEnd]
  case write =>
    have byte {k : Nat} (hk : k < 4) := readByte_memWrite_at hm ha v hk
    refine ⟨byte (k := 0) (by omega), byte (by omega), byte (by omega), byte (by omega), fun b hb => ?_,
      memWrite_wf hm a v⟩
    exact readByte_memWrite_outside m a v b (by omega)

/-- Settles O50: a peek after a poke is a read after a write, and so is the load of the LW in MEM. -/
theorem pokeThenPeek : Obligations.PokeThenPeek := by
  refine ⟨fun s a => ⟨hostDo_peekMemoryWord s a, fun ha => ?dropped⟩, fun s a v hwf =>
    ⟨pokeMemoryWord a v s, hostDo_pokeMemoryWord s a v, rfl, fun ha => pokeMemoryWord_not_admitted ha v s,
      fun b => ?peek, fun e he hlw halu ha => ?load⟩⟩
  case dropped => rw [hostDo_peekMemoryWord, memRead_not_admitted _ ha]
  case peek => rw [hostDo_peekMemoryWord, poke_dmem, memRead_memWrite hwf]
  case load =>
    have hload := step_memwb_of_lw ((poke_exmem s a v).trans he) hlw
    rwa [poke_dmem, memRead_memWrite hwf, if_pos ⟨halu, ha⟩] at hload

end Sys2Proof.Machine

/-! # Proofs: encoding (30_encoding.md)

The encoder puts back together the fields that the decoder takes apart, and a word's class is that of the one row of the
opcode map that it matches. -/

namespace Sys2Proof

/-! ### The opcode map -/

/-- Every row tests the same bits, opcode and funct3 (30_encoding.md R101). -/
theorem opcodeMap_mask : ∀ row ∈ opcodeMap, row.mask = 0x0000707F#32 := by decide

/-- A row's value has nothing outside opcode and funct3. -/
theorem opcodeMap_value :
    ∀ row ∈ opcodeMap, row.value = 0#17 ++ funct3Of row.value ++ 0#5 ++ opcodeOf row.value := by decide

theorem opcodeMap_value_inj : ∀ row ∈ opcodeMap, ∀ other ∈ opcodeMap, row.value = other.value → row = other := by
  decide

theorem opcodeMap_cls_inj : ∀ row ∈ opcodeMap, ∀ other ∈ opcodeMap, row.cls = other.cls → row = other := by decide

theorem opcodeMap_cls_ne_illegal : ∀ row ∈ opcodeMap, row.cls ≠ .illegal := by decide

/-- The two ways a word gets its class: from a row it matches, or from matching none (R102). -/
theorem classOf_cases (w : Word) :
    (∃ row ∈ opcodeMap, w &&& row.mask = row.value ∧ classOf w = row.cls) ∨
      ((∀ row ∈ opcodeMap, w &&& row.mask ≠ row.value) ∧ classOf w = .illegal) := by
  unfold classOf
  cases hfind : opcodeMap.find? (fun row => w &&& row.mask == row.value) with
  | some row =>
    exact .inl ⟨row, List.mem_of_find?_eq_some hfind, by simpa using List.find?_some hfind, rfl⟩
  | none => exact .inr ⟨by simpa using List.find?_eq_none.mp hfind, rfl⟩

/-- No word matches two rows: the rows test the same bits for different values. -/
theorem row_unique {w : Word} {row other : OpcodeRow} (hrow : row ∈ opcodeMap) (hother : other ∈ opcodeMap)
    (hmatch : w &&& row.mask = row.value) (hmatch' : w &&& other.mask = other.value) : row = other := by
  rw [opcodeMap_mask row hrow] at hmatch
  rw [opcodeMap_mask other hother] at hmatch'
  exact opcodeMap_value_inj row hrow other hother (hmatch.symm.trans hmatch')

/-- A word has a row's class exactly when it matches that row. -/
theorem classOf_eq_row_cls_iff (w : Word) {row : OpcodeRow} (hrow : row ∈ opcodeMap) :
    classOf w = row.cls ↔ w &&& row.mask = row.value := by
  obtain ⟨found, hfound, hmatch, hcls⟩ | ⟨hnone, hcls⟩ := classOf_cases w
  · rw [hcls]
    constructor
    · intro h
      rwa [← opcodeMap_cls_inj found hfound row hrow h]
    · intro h
      rw [row_unique hfound hrow hmatch h]
  · rw [hcls]
    exact iff_of_false (opcodeMap_cls_ne_illegal row hrow).symm (hnone row hrow)

theorem classOf_eq_illegal_iff (w : Word) :
    classOf w = .illegal ↔ ∀ row ∈ opcodeMap, w &&& row.mask ≠ row.value := by
  obtain ⟨row, hrow, hmatch, hcls⟩ | ⟨hnone, hcls⟩ := classOf_cases w
  · rw [hcls]
    exact iff_of_false (opcodeMap_cls_ne_illegal row hrow) (fun h => h row hrow hmatch)
  · exact iff_of_true hcls hnone

/-- The class of a row fixes funct3 and opcode to the row's. -/
theorem fields_of_row_cls {w : Word} {row : OpcodeRow} (hcls : classOf w = row.cls) (hrow : row ∈ opcodeMap) :
    funct3Of w = funct3Of row.value ∧ opcodeOf w = opcodeOf row.value := by
  rw [← row_matches_iff, ← opcodeMap_value row hrow, ← opcodeMap_mask row hrow]
  exact (classOf_eq_row_cls_iff w hrow).mp hcls

/-! ### The encoder of a word's own fields -/

/-- R92: the fields of R format cover the word; neighbouring fields join, from the left. -/
theorem encodeR_fields (w : Word) :
    encodeR (funct7Of w) (rs2Of w) (rs1Of w) (funct3Of w) (rdOf w) (opcodeOf w) = w := by
  unfold encodeR funct7Of rs2Of rs1Of funct3Of rdOf opcodeOf
  iterate 5 rw [BitVec.extractLsb'_append_extractLsb'_eq_extractLsb']
  · exact BitVec.extractLsb'_eq_self
  all_goals rfl

/-- R93: an I word is an R word whose funct7 and rs2 hold the immediate. -/
theorem encodeI_fields (w : Word) : encodeI (immIOf w) (rs1Of w) (funct3Of w) (rdOf w) (opcodeOf w) = w := by
  have himm : immIOf w = funct7Of w ++ rs2Of w :=
    (BitVec.extractLsb'_append_extractLsb'_eq_extractLsb' (start₁ := 20) (len₁ := 5) (len₂ := 7) rfl).symm
  unfold encodeI
  rw [himm]
  exact encodeR_fields w

/-- R94: an S word is an R word whose funct7 and rd hold the immediate. -/
theorem encodeS_fields (w : Word) : encodeS (immSOf w) (rs2Of w) (rs1Of w) (funct3Of w) (opcodeOf w) = w := by
  have hhigh : (immSOf w).extractLsb' 5 7 = funct7Of w := BitVec.extractLsb'_append_eq_left
  have hlow : (immSOf w).extractLsb' 0 5 = rdOf w := BitVec.extractLsb'_append_eq_right
  unfold encodeS
  rw [hhigh, hlow]
  exact encodeR_fields w

/-- R95: the fields of B format cover the word. -/
theorem encodeB_fields (w : Word) : encodeB (immBOf w) (rs2Of w) (rs1Of w) (funct3Of w) (opcodeOf w) = w := by
  apply BitVec.eq_of_getLsbD_eq
  intro i hi
  simp only [encodeB, immBOf, rs2Of, rs1Of, funct3Of, opcodeOf, BitVec.getLsbD_append, BitVec.getLsbD_extractLsb']
  interval_cases i <;> simp

/-! ### Decoding and encoding undo each other -/

/-- Encoding undoes decoding: the class fixes opcode and funct3, the operands are the other fields. -/
theorem encode_decode (w : Word) : encode (decode w) = w := by
  cases hd : decode w with
  | and rd rs1 rs2 funct7 =>
    obtain ⟨hcls, rfl, rfl, rfl, rfl⟩ := decode_eq_and_iff.mp hd
    obtain ⟨hf3, hop⟩ := fields_of_row_cls (row := ⟨.and, 0x00007033#32, 0x0000707F#32⟩) hcls (by decide)
    have h := encodeR_fields w
    rwa [hf3, hop] at h
  | or rd rs1 rs2 funct7 =>
    obtain ⟨hcls, rfl, rfl, rfl, rfl⟩ := decode_eq_or_iff.mp hd
    obtain ⟨hf3, hop⟩ := fields_of_row_cls (row := ⟨.or, 0x00006033#32, 0x0000707F#32⟩) hcls (by decide)
    have h := encodeR_fields w
    rwa [hf3, hop] at h
  | ori rd rs1 imm =>
    obtain ⟨hcls, rfl, rfl, rfl⟩ := decode_eq_ori_iff.mp hd
    obtain ⟨hf3, hop⟩ := fields_of_row_cls (row := ⟨.ori, 0x00006013#32, 0x0000707F#32⟩) hcls (by decide)
    have h := encodeI_fields w
    rwa [hf3, hop] at h
  | lw rd rs1 imm =>
    obtain ⟨hcls, rfl, rfl, rfl⟩ := decode_eq_lw_iff.mp hd
    obtain ⟨hf3, hop⟩ := fields_of_row_cls (row := ⟨.lw, 0x00002003#32, 0x0000707F#32⟩) hcls (by decide)
    have h := encodeI_fields w
    rwa [hf3, hop] at h
  | sw rs2 rs1 imm =>
    obtain ⟨hcls, rfl, rfl, rfl⟩ := decode_eq_sw_iff.mp hd
    obtain ⟨hf3, hop⟩ := fields_of_row_cls (row := ⟨.sw, 0x00002023#32, 0x0000707F#32⟩) hcls (by decide)
    have h := encodeS_fields w
    rwa [hf3, hop] at h
  | blt rs1 rs2 offset =>
    obtain ⟨hcls, rfl, rfl, rfl⟩ := decode_eq_blt_iff.mp hd
    obtain ⟨hf3, hop⟩ := fields_of_row_cls (row := ⟨.blt, 0x00004063#32, 0x0000707F#32⟩) hcls (by decide)
    have h := encodeB_fields w
    rwa [hf3, hop] at h
  | bge rs1 rs2 offset =>
    obtain ⟨hcls, rfl, rfl, rfl⟩ := decode_eq_bge_iff.mp hd
    obtain ⟨hf3, hop⟩ := fields_of_row_cls (row := ⟨.bge, 0x00005063#32, 0x0000707F#32⟩) hcls (by decide)
    have h := encodeB_fields w
    rwa [hf3, hop] at h
  | word v => exact (decode_eq_word_iff.mp hd).2.symm

/-- A decoded branch offset is even, and a word decodes to a raw word only in class ILLEGAL. -/
theorem decode_wellFormed (w : Word) : (decode w).wellFormed = true := by
  have heven : evenOffset (immBOf w) = true := beq_iff_eq.mpr (immBOf_even w)
  unfold decode
  cases hcls : classOf w
  case blt => exact heven
  case bge => exact heven
  case illegal => exact beq_iff_eq.mpr hcls
  all_goals rfl

/-! ### Immediates as signed integers -/

/-- Sign extension keeps the signed integer that the field holds (00_scope.md R10). -/
theorem toInt_signExtend_ofInt {n : Nat} {v : Int} (hpos : 0 < n) (hle : n ≤ 32) (hlo : -2 ^ (n - 1) ≤ v)
    (hhi : v < 2 ^ (n - 1)) : ((BitVec.ofInt n v).signExtend 32).toInt = v := by
  rw [BitVec.toInt_signExtend_of_le hle, BitVec.toInt_ofInt_eq_self hpos hlo hhi]

/-- An offset is even as a signed integer exactly when its bit 0 is 0. -/
theorem toInt_even_iff (offset : BitVec 13) : offset.toInt % 2 = 0 ↔ offset.getLsbD 0 = false := by
  have hbit : offset.getLsbD 0 = false ↔ offset.toNat % 2 = 0 := Nat.mod_two_eq_zero_iff_testBit_zero.symm
  rw [hbit, BitVec.toInt_eq_toNat_cond]
  split <;> omega

/-- The immediate of the B-format opcode (R98, R100). -/
theorem immGen_of_branch_opcode {w : Word} (hop : opcodeOf w = 0b1100011#7) :
    immGen w = (immBOf w).signExtend 32 := by
  have hformat : formatOf w = .b := by simp [formatOf, hop]
  rw [immGen, hformat]

/-! ### The obligations -/

/-- Settles O6: the encoded word has the instruction's class, and each field reads back its operand. -/
theorem decodeOfEncode : Obligations.DecodeOfEncode := by
  intro i hwf
  cases i with
  | and rd rs1 rs2 funct7 =>
    exact decode_eq_and_iff.mpr ⟨Laws.EncodedClass.and .., rdOf_encodeR .., rs1Of_encodeR .., rs2Of_encodeR ..,
      funct7Of_encodeR ..⟩
  | or rd rs1 rs2 funct7 =>
    exact decode_eq_or_iff.mpr ⟨Laws.EncodedClass.or .., rdOf_encodeR .., rs1Of_encodeR .., rs2Of_encodeR ..,
      funct7Of_encodeR ..⟩
  | ori rd rs1 imm =>
    exact decode_eq_ori_iff.mpr ⟨Laws.EncodedClass.ori .., rdOf_encodeI .., rs1Of_encodeI .., immIOf_encodeI ..⟩
  | lw rd rs1 imm =>
    exact decode_eq_lw_iff.mpr ⟨Laws.EncodedClass.lw .., rdOf_encodeI .., rs1Of_encodeI .., immIOf_encodeI ..⟩
  | sw rs2 rs1 imm =>
    exact decode_eq_sw_iff.mpr ⟨Laws.EncodedClass.sw .., rs2Of_encodeS .., rs1Of_encodeS .., immSOf_encodeS ..⟩
  | blt rs1 rs2 offset =>
    exact decode_eq_blt_iff.mpr ⟨Laws.EncodedClass.blt .., rs1Of_encodeB .., rs2Of_encodeB ..,
      immBOf_encodeB _ _ _ _ _ (beq_iff_eq.mp hwf)⟩
  | bge rs1 rs2 offset =>
    exact decode_eq_bge_iff.mpr ⟨Laws.EncodedClass.bge .., rs1Of_encodeB .., rs2Of_encodeB ..,
      immBOf_encodeB _ _ _ _ _ (beq_iff_eq.mp hwf)⟩
  | word v => exact decode_eq_word_iff.mpr ⟨beq_iff_eq.mp hwf, rfl⟩

/-- Settles O7. -/
theorem encodeOfDecode : Obligations.EncodeOfDecode := fun w => ⟨encode_decode w, decode_wellFormed w⟩

/-- Settles O8: the fields are O6 read field by field, and the class says which immediate is formed. -/
theorem operandsSurviveEncoding : Obligations.OperandsSurviveEncoding := by
  refine ⟨fun rd rs1 rs2 => ⟨?and, ?or⟩, fun ra rb v hlo hhi => ?twelve, fun rs1 rs2 v hlo hhi heven => ?thirteen⟩
  case and =>
    obtain ⟨hcls, hrd, hrs1, hrs2, -⟩ := decode_eq_and_iff.mp (decodeOfEncode (.and rd rs1 rs2 0#7) rfl)
    exact ⟨hcls, hrd, hrs1, hrs2⟩
  case or =>
    obtain ⟨hcls, hrd, hrs1, hrs2, -⟩ := decode_eq_or_iff.mp (decodeOfEncode (.or rd rs1 rs2 0#7) rfl)
    exact ⟨hcls, hrd, hrs1, hrs2⟩
  case twelve =>
    have hsigned : ((BitVec.ofInt 12 v).signExtend 32).toInt = v :=
      toInt_signExtend_ofInt (by omega) (by omega) (by omega) (by omega)
    refine ⟨?ori, ?lw, ?sw⟩
    case ori =>
      obtain ⟨hcls, hrd, hrs1, himm⟩ := decode_eq_ori_iff.mp (decodeOfEncode (.ori ra rb (.ofInt 12 v)) rfl)
      exact ⟨hcls, hrd, hrs1, by simp only [immGen_of_class, hcls, himm, hsigned]⟩
    case lw =>
      obtain ⟨hcls, hrd, hrs1, himm⟩ := decode_eq_lw_iff.mp (decodeOfEncode (.lw ra rb (.ofInt 12 v)) rfl)
      exact ⟨hcls, hrd, hrs1, by simp only [immGen_of_class, hcls, himm, hsigned]⟩
    case sw =>
      obtain ⟨hcls, hrs2, hrs1, himm⟩ := decode_eq_sw_iff.mp (decodeOfEncode (.sw ra rb (.ofInt 12 v)) rfl)
      exact ⟨hcls, hrs2, hrs1, by simp only [immGen_of_class, hcls, himm, hsigned]⟩
  case thirteen =>
    have hsigned : ((BitVec.ofInt 13 v).signExtend 32).toInt = v :=
      toInt_signExtend_ofInt (by omega) (by omega) (by omega) (by omega)
    have hwf : evenOffset (BitVec.ofInt 13 v) = true := by
      rw [BitVec.toInt_signExtend_of_le (by omega)] at hsigned
      exact beq_iff_eq.mpr ((toInt_even_iff _).mp (by rw [hsigned, heven]))
    refine ⟨?blt, ?bge⟩
    case blt =>
      obtain ⟨hcls, hrs1, hrs2, himm⟩ := decode_eq_blt_iff.mp (decodeOfEncode (.blt rs1 rs2 (.ofInt 13 v)) hwf)
      exact ⟨hcls, hrs1, hrs2, by simp only [immGen_of_class, hcls, himm, hsigned]⟩
    case bge =>
      obtain ⟨hcls, hrs1, hrs2, himm⟩ := decode_eq_bge_iff.mp (decodeOfEncode (.bge rs1 rs2 (.ofInt 13 v)) hwf)
      exact ⟨hcls, hrs1, hrs2, by simp only [immGen_of_class, hcls, himm, hsigned]⟩

/-- Settles O9: the rows exclude each other, and the class is a function of opcode and funct3. -/
theorem classIsTheOneMatchingRow : Obligations.ClassIsTheOneMatchingRow := by
  refine ⟨fun w row hrow => classOf_eq_row_cls_iff w hrow, classOf_eq_illegal_iff, fun v w hop hf3 => ?_⟩
  rw [classOf_eq_classFrom, classOf_eq_classFrom, hop, hf3]

/-- Settles O10: an even signed integer of 13 bits is at most 4094. -/
theorem branchImmediateIsEvenAndInRange : Obligations.BranchImmediateIsEvenAndInRange := by
  intro w hop
  have himm := immGen_of_branch_opcode hop
  have hint : (immGen w).toInt = (immBOf w).toInt := by
    rw [himm, BitVec.toInt_signExtend_of_le (by omega)]
  have heven : (immBOf w).toInt % 2 = 0 := (toInt_even_iff _).mpr (immBOf_even w)
  have hlo := (immBOf w).le_toInt
  have hhi := (immBOf w).toInt_lt
  rw [hint]
  exact ⟨himm, heven, by omega, by omega⟩

end Sys2Proof

/-! # Proofs: the pipeline (40_pipeline.md)

What each stage does, said by the class of the word in it; a clock cycle with and without a taken branch in EX; and from
these the invariant that every step keeps. -/

namespace Sys2Proof.Machine

/-! ### The stage rules of a word, by its class -/

/-- EX of a decoded word is the rule of its class (R135). -/
theorem execute_decode (w a b imm pc : Word) :
    (rulesOf (decode w)).execute a b imm pc = refExecRule (classOf w) a b imm pc := by
  unfold decode
  cases classOf w <;> rfl

/-- The value that WB selects is the loaded word for LW alone (R133). -/
theorem select_decode (w : Word) (m : MemWb) :
    (rulesOf (decode w)).select m = if classOf w = .lw then m.lmd else m.aluOutput := by
  unfold decode
  cases classOf w <;> rfl

/-- Only a taken branch sets cond (R135). -/
theorem refExecRule_cond_iff (d : IdEx) :
    (refExecRule (classOf d.ir) d.a d.b d.imm d.pc).2 = true ↔ Taken d := by
  unfold Taken
  cases classOf d.ir <;> simp [refExecRule]

/-- A taken branch's target is its own address plus the immediate (43_branch.md R222). -/
theorem refExecRule_of_taken {d : IdEx} (h : Taken d) :
    refExecRule (classOf d.ir) d.a d.b d.imm d.pc = (d.pc + d.imm, true) := by
  refine Prod.ext ?_ ((refExecRule_cond_iff d).mpr h)
  obtain ⟨hcls, -⟩ | ⟨hcls, -⟩ := h <;> rw [hcls, refExecRule]

/-! ### The stages, by the class of the word in them -/

/-- WB's output from the class of the word in it. -/
theorem writeBackOut_of_class {s : State} {m : MemWb} (hm : s.memwb = .record m) :
    writeBackOut s =
      (if writesRegister (classOf m.ir) then
          writeReg s.rf (rdOf m.ir) (if classOf m.ir = .lw then m.lmd else m.aluOutput)
        else s.rf,
        .record ⟨m.ir, rdOf m.ir, if classOf m.ir = .lw then m.lmd else m.aluOutput,
          writesRegister (classOf m.ir) && decide (rdOf m.ir ≠ 0#5)⟩) := by
  have hdest := (dest_rulesOf (decode m.ir)).trans (dest_decode_eq m.ir)
  rw [writeBackOut_record hm]
  by_cases hw : writesRegister (classOf m.ir) = true
  · rw [if_pos hw] at hdest
    rw [writeBackUnit_some hdest, select_decode, if_pos hw, hw, Bool.true_and]
  · rw [if_neg hw] at hdest
    rw [writeBackUnit_none hdest, select_decode, if_neg hw, Bool.eq_false_iff.mpr hw, Bool.false_and]

/-- EX's output from the class of the word in it. -/
theorem executeOut_of_class {s : State} {d : IdEx} (hd : s.idex = .record d) :
    executeOut s =
      .record ⟨d.ir, (refExecRule (classOf d.ir) d.a d.b d.imm d.pc).1, d.b,
        (refExecRule (classOf d.ir) d.a d.b d.imm d.pc).2⟩ := by
  rw [executeOut_record hd, executeUnit_record, execute_decode]

/-! ### The redirect of a taken branch -/

/-- A taken branch in EX redirects the fetch to its target. -/
theorem redirect_of_taken {s : State} {d : IdEx} (hd : s.idex = .record d) (h : Taken d) :
    redirect (executeOut s) = some (d.pc + d.imm) := by
  rw [executeOut_of_class hd, refExecRule_of_taken h]
  rfl

/-- Nothing else redirects it. -/
theorem redirect_of_not_taken {s : State} (h : ¬TakenIn s) : redirect (executeOut s) = none := by
  cases hd : s.idex with
  | bubble => rw [executeOut_bubble hd, redirect_bubble]
  | record d =>
    have hcond : ¬(refExecRule (classOf d.ir) d.a d.b d.imm d.pc).2 = true := fun hc =>
      h ⟨d, hd, (refExecRule_cond_iff d).mp hc⟩
    rw [executeOut_of_class hd, redirect_record, if_neg hcond]

/-- A Bubble in EX takes no branch. -/
theorem not_takenIn_of_bubble {s : State} (h : s.idex = .bubble) : ¬TakenIn s := by
  rintro ⟨d, hd, -⟩
  rw [h] at hd
  cases hd

/-! ### The front end of a cycle, with and without a taken branch (R137 to R141) -/

theorem cycleState_idex_of_taken {s : State} (h : TakenIn s) : (cycleState s).idex = .bubble := by
  obtain ⟨d, hd, ht⟩ := h
  rw [cycleState_idex, redirect_of_taken hd ht, squashDecode_some]

theorem cycleState_ifid_of_taken {s : State} (h : TakenIn s) : (cycleState s).ifid = .bubble := by
  obtain ⟨d, hd, ht⟩ := h
  rw [cycleState_ifid, redirect_of_taken hd ht, redirectFetch_some]

theorem cycleState_pc_of_taken {s : State} {d : IdEx} (hd : s.idex = .record d) (h : Taken d) :
    (cycleState s).pc = d.pc + d.imm := by
  rw [cycleState_pc, redirect_of_taken hd h, redirectFetch_some]

theorem cycleState_idex_of_not_taken {s : State} (h : ¬TakenIn s) :
    (cycleState s).idex = decodeUnit s.ifid s.rf := by
  rw [cycleState_idex, redirect_of_not_taken h, squashDecode_none]

theorem cycleState_ifid_of_not_taken {s : State} (h : ¬TakenIn s) :
    (cycleState s).ifid = (fetchUnit (fetchWord s.program s.pc) s.pc).1 := by
  rw [cycleState_ifid, redirect_of_not_taken h, redirectFetch_none]

theorem cycleState_pc_of_not_taken {s : State} (h : ¬TakenIn s) :
    (cycleState s).pc = (fetchUnit (fetchWord s.program s.pc) s.pc).2 := by
  rw [cycleState_pc, redirect_of_not_taken h, redirectFetch_none]

/-! ### The step of a running machine -/

theorem step_of_running {s : State} (h : status s = .running) : step s = .next (cycleState s) := by
  rw [step_eq, if_neg ((status_eq_running s).mp h)]

theorem step_of_complete {s : State} (h : status s = .complete) : step s = .next s := by
  rw [step_eq, if_pos h]

/-- The next state of a running machine is the one after the clock cycle. -/
theorem eq_cycleState_of_step {s t : State} (h : status s = .running) (hstep : step s = .next t) :
    t = cycleState s :=
  Host.Outcome.next.inj (hstep.symm.trans (step_of_running h))

/-! ### The cycle is the spec's (R131) -/

/-- The spec guards the write against x0; a write to x0 is discarded anyway (R133). -/
theorem writeBackOut_eq_ref (s : State) : writeBackOut s = refWriteBack s.memwb s.rf := by
  cases hm : s.memwb with
  | bubble => exact writeBackOut_bubble hm
  | record m =>
    rw [writeBackOut_of_class hm, refWriteBack]
    by_cases hrd : rdOf m.ir = 0#5 <;> simp [hrd]

theorem memoryOut_eq_ref (s : State) : memoryOut s = refMemory s.exmem s.dmem := by
  cases he : s.exmem with
  | bubble => exact memoryOut_bubble he
  | record e => exact memoryOut_of_class he

theorem executeOut_eq_ref (s : State) : executeOut s = (refExecute s.idex).1 := by
  cases hd : s.idex with
  | bubble => exact executeOut_bubble hd
  | record d => exact executeOut_of_class hd

theorem decodeUnit_eq_ref (latch : Latch IfId) (rf : RegFile) : decodeUnit latch rf = refDecode latch rf := by
  cases latch <;> rfl

theorem fetchUnit_eq_ref (p : Program) (pc : Word) : fetchUnit (fetchWord p pc) pc = refFetch p pc := by
  unfold refFetch
  cases fetchWord p pc <;> rfl

/-- The redirect that EX orders is the spec's taken and target (R135). -/
theorem redirect_eq_ref (s : State) :
    redirect (executeOut s) = if (refExecute s.idex).2.1 then some (refExecute s.idex).2.2 else none := by
  rw [executeOut_eq_ref]
  cases s.idex with
  | bubble => rfl
  | record d =>
    simp only [refExecute, redirect_record]
    split <;> rfl

/-- The clock cycle of a running machine is the composition of R131. -/
theorem cycleState_eq_refStep {s : State} (h : status s = .running) : cycleState s = refStep s := by
  rw [refStep, if_neg ((status_eq_running s).mp h), cycleState, redirect_eq_ref, writeBackOut_eq_ref,
    memoryOut_eq_ref, executeOut_eq_ref, decodeUnit_eq_ref, fetchUnit_eq_ref]
  cases htaken : (refExecute s.idex).2.1 <;> simp [htaken]

/-- Settles O13: the two agree at COMPLETE, and otherwise stage by stage. -/
theorem stepIsTheSpecsClockCycle : Obligations.StepIsTheSpecsClockCycle := by
  intro s
  cases h : status s with
  | complete => rw [step_of_complete h, refStep, if_pos h]
  | running => rw [step_of_running h, cycleState_eq_refStep h]

/-! ### What every step keeps -/

/-- The sum of even words is even, wrapping or not. -/
theorem even_add {x y : Word} (hx : x.getLsbD 0 = false) (hy : y.getLsbD 0 = false) :
    (x + y).getLsbD 0 = false := by
  rw [BitVec.getLsbD_add (by omega), hx, hy, BitVec.carry_zero]
  rfl

/-- An address of ProgramMemory is even (10_state.md R35). -/
theorem even_of_programAddress {pc : Word} (h : programAddress pc.toNat = true) : pc.getLsbD 0 = false := by
  simp only [programAddress, Bool.and_eq_true, beq_iff_eq] at h
  exact Nat.mod_two_eq_zero_iff_testBit_zero.mp (by omega)

/-- A branch's immediate is even (30_encoding.md R98). -/
theorem immGen_even_of_branch {w : Word} (h : classOf w = .blt ∨ classOf w = .bge) :
    (immGen w).getLsbD 0 = false := by
  have himm : immGen w = (immBOf w).signExtend 32 := by
    rw [immGen_of_class]
    obtain h | h := h <;> rw [h]
  have heven := immBOf_even w
  rw [himm, BitVec.getLsbD_signExtend]
  simpa using heven

theorem branch_of_taken {d : IdEx} (h : Taken d) : classOf d.ir = .blt ∨ classOf d.ir = .bge :=
  h.imp And.left And.left

/-- In a state that meets the invariant, the target of a taken branch is even (43_branch.md R224). -/
theorem Invariant.target_even {s : State} (hs : Invariant s) {d : IdEx} (hd : s.idex = .record d)
    (h : Taken d) : (d.pc + d.imm).getLsbD 0 = false := by
  obtain ⟨hfetch, -, himm⟩ := hs.idex d hd
  have hpc := even_of_programAddress (programAddress_of_fetchWord hs.program hfetch)
  rw [himm]
  exact even_add hpc (immGen_even_of_branch (branch_of_taken h))

/-- Data memory stays in canonical form. -/
theorem Invariant.step_dmem {s t : State} (hs : Invariant s) (hstep : step s = .next t) : t.dmem.wf := by
  obtain hkept | ⟨e, -, -, hwritten⟩ := step_dmem_cases hstep
  · exact hkept ▸ hs.dmem
  · exact hwritten ▸ memWrite_wf hs.dmem _ _

/-- PC stays even: it becomes a target, moves by 4 or stays. -/
theorem Invariant.cycle_pc {s : State} (hs : Invariant s) : (cycleState s).pc.getLsbD 0 = false := by
  by_cases htaken : TakenIn s
  · obtain ⟨d, hd, ht⟩ := htaken
    rw [cycleState_pc_of_taken hd ht]
    exact hs.target_even hd ht
  · rw [cycleState_pc_of_not_taken htaken]
    cases fetchWord s.program s.pc with
    | none => exact hs.pc
    | some w => exact even_add hs.pc rfl

/-- What is fetched stands in ProgramMemory at the address noted with it. -/
theorem cycleState_ifid_fetched {s : State} {f : IfId} (hf : (cycleState s).ifid = .record f) :
    fetchWord s.program f.pc = some f.ir ∧ f.npc = f.pc + 4#32 := by
  by_cases htaken : TakenIn s
  · rw [cycleState_ifid_of_taken htaken] at hf
    cases hf
  · rw [cycleState_ifid_of_not_taken htaken] at hf
    cases hw : fetchWord s.program s.pc with
    | none =>
      rw [hw] at hf
      cases hf
    | some w =>
      rw [hw] at hf
      cases hf
      exact ⟨hw, rfl⟩

/-- Decode carries the fetched word, its address and that plus 4, and adds its immediate. -/
theorem Invariant.cycle_idex {s : State} (hs : Invariant s) {d : IdEx} (hd : (cycleState s).idex = .record d) :
    fetchWord s.program d.pc = some d.ir ∧ d.npc = d.pc + 4#32 ∧ d.imm = immGen d.ir := by
  by_cases htaken : TakenIn s
  · rw [cycleState_idex_of_taken htaken] at hd
    cases hd
  · rw [cycleState_idex_of_not_taken htaken] at hd
    cases hf : s.ifid with
    | bubble =>
      rw [hf] at hd
      cases hd
    | record f =>
      rw [hf] at hd
      cases hd
      obtain ⟨hfetch, hnpc⟩ := hs.ifid f hf
      exact ⟨hfetch, hnpc, rfl⟩

/-- EX sets cond for a taken branch alone, and its ALUOUTPUT is then the target. -/
theorem Invariant.cycle_exmem {s : State} (hs : Invariant s) {e : ExMem} (he : (cycleState s).exmem = .record e)
    (hcond : e.cond = true) :
    (classOf e.ir = .blt ∨ classOf e.ir = .bge) ∧ e.aluOutput.getLsbD 0 = false := by
  rw [cycleState_exmem] at he
  cases hd : s.idex with
  | bubble =>
    rw [executeOut_bubble hd] at he
    cases he
  | record d =>
    rw [executeOut_of_class hd] at he
    cases he
    have ht : Taken d := (refExecRule_cond_iff d).mp hcond
    rw [refExecRule_of_taken ht]
    exact ⟨branch_of_taken ht, hs.target_even hd ht⟩

/-- MEM loads a word for LW alone. -/
theorem cycleState_memwb_lmd {s : State} {m : MemWb} (hm : (cycleState s).memwb = .record m)
    (hlw : classOf m.ir ≠ .lw) : m.lmd = 0#32 := by
  rw [cycleState_memwb] at hm
  cases he : s.exmem with
  | bubble =>
    rw [memoryOut_bubble he] at hm
    cases hm
  | record e =>
    rw [memoryOut_of_class he] at hm
    cases hm
    exact if_neg hlw

/-- The WB record is about the write that the same cycle makes. -/
theorem cycleState_wbr_written {s : State} {r : WbRec} (hr : (cycleState s).wbr = .record r) :
    r.rd = rdOf r.ir ∧ r.we = (writesRegister (classOf r.ir) && decide (r.rd ≠ 0#5)) ∧
      (r.we = true → readReg (cycleState s).rf r.rd = r.value) := by
  rw [cycleState_wbr] at hr
  rw [cycleState_rf]
  cases hm : s.memwb with
  | bubble =>
    rw [writeBackOut_bubble hm] at hr
    cases hr
  | record m =>
    rw [writeBackOut_of_class hm] at hr ⊢
    cases hr
    refine ⟨rfl, rfl, fun hwe => ?_⟩
    obtain ⟨hw, hne⟩ := Bool.and_eq_true_iff.mp hwe
    simp only
    rw [if_pos hw, readReg_writeReg, if_pos ⟨rfl, of_decide_eq_true hne⟩]

/-- Settles O18: a COMPLETE machine stays as it is; a clock cycle keeps each part of the invariant. -/
theorem everyStepKeepsTheInvariant : Obligations.EveryStepKeepsTheInvariant := by
  intro s t hs hstep
  obtain ⟨-, rfl⟩ | ⟨-, rfl⟩ := step_cases hstep
  · exact hs
  · exact {
      x0 := (step_rf_zero hstep).trans hs.x0
      dmem := hs.step_dmem hstep
      program := hs.program
      pc := hs.cycle_pc
      ifid := fun _ hf => cycleState_ifid_fetched (s := s) hf
      idex := fun _ hd => hs.cycle_idex hd
      exmem := fun _ he hcond => hs.cycle_exmem he hcond
      memwb := fun _ hm hlw => cycleState_memwb_lmd hm hlw
      wbr := fun _ hr => cycleState_wbr_written hr }

/-! ### Words move one stage on -/

theorem writeBackOut_word (s : State) : (writeBackOut s).2.word WbRec.ir = s.memwb.word MemWb.ir := by
  cases hm : s.memwb with
  | bubble => rw [writeBackOut_bubble hm]; rfl
  | record m => rw [writeBackOut_of_class hm]; rfl

theorem memoryOut_word (s : State) : (memoryOut s).1.word MemWb.ir = s.exmem.word ExMem.ir := by
  cases he : s.exmem with
  | bubble => rw [memoryOut_bubble he]; rfl
  | record e => rw [memoryOut_of_class he]; rfl

theorem executeOut_word (s : State) : (executeOut s).word ExMem.ir = s.idex.word IdEx.ir := by
  cases hd : s.idex with
  | bubble => rw [executeOut_bubble hd]; rfl
  | record d => rw [executeOut_of_class hd]; rfl

theorem decodeUnit_word (latch : Latch IfId) (rf : RegFile) :
    (decodeUnit latch rf).word IdEx.ir = latch.word IfId.ir := by
  cases latch <;> rfl

theorem fetchUnit_word (word : Option Word) (pc : Word) : (fetchUnit word pc).1.word IfId.ir = word := by
  cases word <;> rfl

/-- Without a taken branch, Decode passes its word on. -/
theorem cycleState_idex_word {s : State} (h : ¬TakenIn s) :
    (cycleState s).idex.word IdEx.ir = s.ifid.word IfId.ir := by
  rw [cycleState_idex_of_not_taken h, decodeUnit_word]

/-- Without a taken branch, the fetched word goes to IF/ID. -/
theorem cycleState_ifid_word {s : State} (h : ¬TakenIn s) :
    (cycleState s).ifid.word IfId.ir = fetchWord s.program s.pc := by
  rw [cycleState_ifid_of_not_taken h, fetchUnit_word]

/-- Without a taken branch, the word at PC is fetched and PC moves past it (R139). -/
theorem cycleState_fetch {s : State} {w : Word} (h : ¬TakenIn s) (hw : fetchWord s.program s.pc = some w) :
    (cycleState s).ifid = .record ⟨w, s.pc + 4#32, s.pc⟩ ∧ (cycleState s).pc = s.pc + 4#32 := by
  rw [cycleState_ifid_of_not_taken h, cycleState_pc_of_not_taken h, hw, fetchUnit_some]
  exact ⟨rfl, rfl⟩

/-- Settles O17: each stage's output holds the stage's word, and only a taken branch squashes one. -/
theorem wordsMoveOneStageOn : Obligations.WordsMoveOneStageOn := by
  intro s t hrunning hstep
  obtain rfl := eq_cycleState_of_step hrunning hstep
  exact ⟨writeBackOut_word s, memoryOut_word s, executeOut_word s,
    fun h => ⟨cycleState_idex_word h, cycleState_ifid_word h⟩,
    fun h => ⟨cycleState_idex_of_taken h, cycleState_ifid_of_taken h⟩⟩

/-! ### PC and the freeze -/

/-- Settles O34. -/
theorem nextValueOfPc : Obligations.NextValueOfPc := by
  intro s t hrunning hstep
  obtain rfl := eq_cycleState_of_step hrunning hstep
  refine ⟨fun d hd ht => cycleState_pc_of_taken hd ht, fun h hsome => ?next, fun h hnone => ?stay⟩
  case next =>
    obtain ⟨w, hw⟩ := Option.ne_none_iff_exists'.mp hsome
    exact (cycleState_fetch h hw).2
  case stay => rw [cycleState_pc_of_not_taken h, hnone, fetchUnit_none]

/-- A word that is fetched with ID/EX empty is in EX/MEM after three cycles. -/
theorem fetched_word_reaches_execute {s : State} {w : Word} (hw : fetchWord s.program s.pc = some w)
    (hidex : s.idex = .bubble) (hifid : s.ifid = .bubble) :
    ∃ t1 t2 t3, step s = .next t1 ∧ t1.ifid = .record ⟨w, s.pc + 4#32, s.pc⟩ ∧ t1.idex = .bubble ∧
      step t1 = .next t2 ∧ (∃ d, t2.idex = .record d ∧ d.ir = w ∧ d.pc = s.pc) ∧
      step t2 = .next t3 ∧ ∃ e, t3.exmem = .record e ∧ e.ir = w := by
  have hnot := not_takenIn_of_bubble hidex
  have ⟨hifid1, _⟩ := cycleState_fetch hnot hw
  have hidex1 : (cycleState s).idex = .bubble := by
    rw [cycleState_idex_of_not_taken hnot, hifid, decodeUnit_bubble]
  have hidex2 : (cycleState (cycleState s)).idex =
      .record (decodeRecord ⟨w, s.pc + 4#32, s.pc⟩ (cycleState s).rf) := by
    rw [cycleState_idex_of_not_taken (not_takenIn_of_bubble hidex1), hifid1, decodeUnit_record]
  have hexmem3 := executeOut_of_class hidex2
  have hrunning1 : status (cycleState s) = .running := running_of_stage (.inl (by simp [hifid1]))
  have hrunning2 : status (cycleState (cycleState s)) = .running :=
    running_of_stage (.inr (.inl (by simp [hidex2])))
  exact ⟨_, _, _, step_of_running (running_of_fetch hw), hifid1, hidex1, step_of_running hrunning1,
    ⟨_, hidex2, rfl, rfl⟩, step_of_running hrunning2, _, hexmem3, rfl⟩

/-- Settles O33: the branch leaves ID/EX and IF/ID empty and PC at its target, and from there the target's word is
fetched. -/
theorem takenBranchFreezesThePipeline : Obligations.TakenBranchFreezesThePipeline := by
  intro s d hd ht
  have htaken : TakenIn s := ⟨d, hd, ht⟩
  have hrunning : status s = .running := running_of_stage (.inr (.inl (by simp [hd])))
  exact ⟨cycleState s, step_of_running hrunning, cycleState_idex_of_taken htaken, cycleState_ifid_of_taken htaken,
    cycleState_pc_of_taken hd ht, fun w hw =>
      fetched_word_reaches_execute hw (cycleState_idex_of_taken htaken) (cycleState_ifid_of_taken htaken)⟩

/-! ### Words of class ILLEGAL -/

/-- Settles O42: the class ILLEGAL of R136, stage by stage. -/
theorem illegalWordHasNoEffect : Obligations.IllegalWordHasNoEffect := by
  intro s hrunning
  refine ⟨cycleState s, step_of_running hrunning, fun w hw _ hnot => ?fetch, fun f hf _ hnot => ?decode,
    fun d hd hcls => ?execute, fun e he hcls => ?memory, fun m hm hcls => ?writeBack, rfl⟩
  case fetch => exact (cycleState_fetch hnot hw).1
  case decode => exact ⟨_, by rw [cycleState_idex_of_not_taken hnot, hf, decodeUnit_record], rfl⟩
  case execute => rw [cycleState_exmem, executeOut_of_class hd, hcls, refExecRule]
  case memory =>
    rw [cycleState_memwb, cycleState_dmem, memoryOut_of_class he, hcls]
    exact ⟨rfl, rfl⟩
  case writeBack =>
    rw [cycleState_rf, cycleState_wbr, writeBackOut_of_class hm, hcls]
    exact ⟨rfl, _, rfl, rfl, rfl⟩

/-- What IF and ID do in the clock cycle of any instruction alone in flight (R137 to R140). -/
theorem frontEnd_cycleOf {i : Instr} {a b imm : Word} {s : State} (k : StageRules)
    (hoperands : ∀ w, decode w = i →
      readReg s.rf (rs1Of w) = a ∧ readReg s.rf (rs2Of w) = b ∧ immGen w = imm) :
    FrontEnd i a b imm s (cycleOf i k s) := by
  refine ⟨fun hnone => ⟨fun f hf hi => ?decode, fun w hw hi => ?fetch⟩, fun target htarget => ?squash⟩
  case decode =>
    obtain ⟨rfl, rfl, rfl⟩ := hoperands f.ir hi
    rw [cycleOf_idex, hnone, squashDecode_none, hf, only_record_of (by simp [hi])]
    rfl
  case fetch =>
    rw [cycleOf_ifid, cycleOf_pc, hnone, redirectFetch_none, hw, Option.filter_some_pos (by simp [hi])]
    exact ⟨rfl, rfl⟩
  case squash =>
    rw [cycleOf_idex, cycleOf_ifid, cycleOf_pc, htarget]
    exact ⟨rfl, rfl, rfl⟩

/-- Rules without a destination leave the register file alone. -/
theorem writeBackUnit_rf_of_no_dest {k : StageRules} (h : k.dest = none) (latch : Latch MemWb) (rf : RegFile) :
    (writeBackUnit k latch rf).1 = rf := by
  cases latch with
  | bubble => rfl
  | record m => rw [writeBackUnit_none h]

/-- Rules without an access leave data memory alone. -/
theorem memoryUnit_dmem_of_noAccess {k : StageRules} (h : k.access = noAccess) (latch : Latch ExMem) (m : Memory) :
    (memoryUnit k latch m).2 = m := by
  cases latch with
  | bubble => rfl
  | record e => rw [memoryUnit_record, h, noAccess]

/-- The clock cycle of a raw word of class ILLEGAL. -/
theorem exec_word_of_illegal {v : Word} (h : classOf v = .illegal) (s : State) :
    exec (.word v) s = .next (cycleOf (.word v) illegalRules s) := by
  have hdecode : decode v = .word v := decode_eq_word_iff.mpr ⟨h, rfl⟩
  have hexec := exec_decode v s
  rwa [hdecode] at hexec

/-- Settles O27: the rules of ILLEGAL in each stage of the clock cycle of `.word v`. -/
theorem illegalWordCompletesInEveryStage : Obligations.IllegalWordCompletesInEveryStage := by
  intro v s hcls
  refine ⟨_, exec_word_of_illegal hcls s, frontEnd_cycleOf _ fun w hw => ?operands, fun d hd hi => ?execute,
    fun e he hi => ?memory, fun m hm hi => ?writeBack, ?registers, ?dmem, rfl, rfl⟩
  case operands =>
    obtain ⟨-, rfl⟩ := decode_eq_word_iff.mp hw
    exact ⟨rfl, rfl, rfl⟩
  case execute =>
    rw [cycleOf_exmem, hd, only_record_of (by simp [hi])]
    rfl
  case memory =>
    rw [cycleOf_memwb, he, only_record_of (by simp [hi])]
    rfl
  case writeBack =>
    rw [cycleOf_wbr, hm, only_record_of (by simp [hi])]
    rfl
  case registers => exact writeBackUnit_rf_of_no_dest rfl _ _
  case dmem => exact memoryUnit_dmem_of_noAccess rfl _ _

/-! ### The host's step and run -/

/-- Settles O14. -/
theorem stepWhenCompleteChangesNothing : Obligations.StepWhenCompleteChangesNothing := fun _ h => step_of_complete h

/-- Settles O15: the host's step is the one of R131. -/
theorem hostStepCannotFail : Obligations.HostStepCannotFail := by
  intro s
  have hstep := stepIsTheSpecsClockCycle s
  exact ⟨refStep s, hstep, rfl, by rw [hostDo, hstep, andThen_next]⟩

/-- Settles O16. -/
theorem cycleCounterCountsSteps : Obligations.CycleCounterCountsSteps := by
  intro s t hstep
  refine ⟨fun hrunning => ?_, fun hcomplete => ?_⟩
  · rw [eq_cycleState_of_step hrunning hstep, cycleState_cycle]
  · rw [Host.Outcome.next.inj (hstep.symm.trans (step_of_complete hcomplete))]

/-- A run of a COMPLETE machine steps not at all. -/
theorem hostRun_of_complete {s : State} (h : status s = .complete) (cap : Nat) : hostRun cap s = .next s := by
  cases cap with
  | zero => rfl
  | succ n => rw [hostRun, h]

/-- A run of a RUNNING machine steps once and goes on. -/
theorem hostRun_succ_of_running {s : State} (h : status s = .running) (n : Nat) :
    hostRun (n + 1) s = hostRun n (cycleState s) := by
  rw [hostRun, h]
  simp only
  rw [step_of_running h, andThen_next]

/-- What a run does (R149): steps of a RUNNING machine, until COMPLETE or the cap. -/
theorem hostRun_runs (cap : Nat) (s : State) :
    ∃ k t, hostRun cap s = .next t ∧ Runs k s t ∧ k ≤ cap ∧
      (∀ j u, j < k → Runs j s u → status u = .running) ∧ (k < cap → status t = .complete) := by
  induction cap generalizing s with
  | zero => exact ⟨0, s, rfl, rfl, le_rfl, fun _ _ hj => absurd hj (by omega), fun h => absurd h (by omega)⟩
  | succ n ih =>
    cases hs : status s with
    | complete =>
      exact ⟨0, s, hostRun_of_complete hs _, rfl, by omega, fun _ _ hj => absurd hj (by omega), fun _ => hs⟩
    | running =>
      obtain ⟨k, t, hrun, hruns, hle, hbefore, hend⟩ := ih (cycleState s)
      refine ⟨k + 1, t, (hostRun_succ_of_running hs n).trans hrun, (runs_succ_running hs).mpr hruns, by omega,
        fun j u hj hju => ?_, fun hlt => hend (by omega)⟩
      cases j with
      | zero => exact runs_zero.mp hju ▸ hs
      | succ j => exact hbefore j u (by omega) ((runs_succ_running hs).mp hju)

/-- Each step of a machine that is RUNNING before it counts one cycle. -/
theorem runs_cycle {k : Nat} {s t : State} (hrun : Runs k s t)
    (hbefore : ∀ j u, j < k → Runs j s u → status u = .running) : t.cycle = s.cycle + k := by
  induction k generalizing s with
  | zero => exact runs_zero.mp hrun ▸ rfl
  | succ k ih =>
    have hs := hbefore 0 s (by omega) rfl
    have hrest := ih ((runs_succ_running hs).mp hrun) fun j u hj hju =>
      hbefore (j + 1) u (by omega) ((runs_succ_running hs).mpr hju)
    rw [hrest, cycleState_cycle]
    omega

/-- Settles O47. -/
theorem runStopsAtCompleteOrTheCap : Obligations.RunStopsAtCompleteOrTheCap := by
  refine ⟨fun cap s => ?_, fun _ => rfl⟩
  obtain ⟨k, t, hrun, hruns, hle, hbefore, hend⟩ := hostRun_runs cap s
  exact ⟨k, t, hrun, hruns, hle, hbefore, hend, runs_cycle hruns hbefore, by rw [hostDo, hrun]; rfl⟩

/-! ### The host's other operations -/

/-- `assemble` installs a program and changes nothing else (44_assembler.md R263, R264). -/
theorem hostAssemble_eq (lines : List (List Char)) (s : State) :
    hostAssemble lines s = { s with program := (hostAssemble lines s).program } := by
  unfold hostAssemble
  cases assemble lines <;> rfl

/-- A poke leaves the status alone: the status is no function of data memory (R143). -/
theorem status_poke (s : State) (a v : Word) : status (pokeMemoryWord a v s) = status s := rfl

/-- The host's step leaves the state that the step answers. -/
theorem step_of_hostDo {s t : State} {reply : HostReply} (h : hostDo .step s = .next (t, reply)) :
    step s = .next t := by
  obtain ⟨u, hu, heq⟩ := andThen_eq_next h
  cases heq
  exact hu

/-- The host's run leaves the state that `hostRun` answers. -/
theorem hostRun_of_hostDo {n : Nat} {s t : State} {reply : HostReply} (h : hostDo (.run n) s = .next (t, reply)) :
    hostRun n s = .next t := by
  obtain ⟨u, hu, heq⟩ := andThen_eq_next h
  cases heq
  exact hu

/-- A peek at a register leaves the state as it was. -/
theorem eq_of_hostDo_peekRegister {i : Int} {s t : State} {reply : HostReply}
    (h : hostDo (.peekRegister i) s = .next (t, reply)) : t = s := by
  obtain ⟨v, -, heq⟩ := andThen_eq_next h
  cases heq
  rfl

/-- No run changes ProgramMemory. -/
theorem hostRun_program {n : Nat} {s t : State} (h : hostRun n s = .next t) : t.program = s.program := by
  obtain ⟨k, u, hrun, hruns, -⟩ := hostRun_runs n s
  rw [Host.Outcome.next.inj (h.symm.trans hrun)]
  exact stepsKeepTheProgram k s u hruns

/-- An assemble leaves nothing in flight that was not, so only the fetch at PC decides the status. -/
theorem status_hostAssemble_of_complete {s : State} (h : status s = .complete) (lines : List (List Char)) :
    status (hostAssemble lines s) = .running ↔ fetchWord (hostAssemble lines s).program s.pc ≠ none := by
  obtain ⟨-, hifid, hidex, hexmem, hmemwb⟩ := (status_eq_complete s).mp h
  refine (status_eq_running _).trans (not_congr ?_)
  rw [status_eq_complete, hostAssemble_eq]
  simp [hifid, hidex, hexmem, hmemwb]

/-- Settles O46. -/
theorem completeIsTerminal : Obligations.CompleteIsTerminal := by
  refine ⟨fun n s h => ⟨(runs_complete h n s).mpr rfl, hostRun_of_complete h n⟩, fun s t a v reply h => ?poke,
    fun s t a reply h => ?peekMemory, fun s t i reply h => eq_of_hostDo_peekRegister h,
    fun s _ => (statusAfterReset s).2, fun s lines h => status_hostAssemble_of_complete h lines,
    fun op s t reply hs h ht => ?others⟩
  case poke =>
    cases h
    exact status_poke s a v
  case peekMemory =>
    cases h
    rfl
  case others =>
    have unchanged {u : State} (hu : status u = status s) (hut : t = u) : False := by
      rw [hut, hu, hs] at ht
      cases ht
    cases op with
    | assemble lines => exact .inr ⟨lines, rfl⟩
    | reset => exact .inl rfl
    | step =>
      have hstep := (step_of_complete hs).symm.trans (step_of_hostDo h)
      exact (unchanged rfl (Host.Outcome.next.inj hstep).symm).elim
    | run n =>
      have hrun := (hostRun_of_complete hs n).symm.trans (hostRun_of_hostDo h)
      exact (unchanged rfl (Host.Outcome.next.inj hrun).symm).elim
    | peekRegister i => exact (unchanged rfl (eq_of_hostDo_peekRegister h)).elim
    | peekMemoryWord a =>
      cases h
      exact (unchanged rfl rfl).elim
    | pokeMemoryWord a v =>
      cases h
      exact (unchanged (status_poke s a v) rfl).elim

/-- Settles O51: an assemble writes the program alone, a poke data memory alone, and a peek nothing. -/
theorem whatTheHostCannotWrite : Obligations.WhatTheHostCannotWrite := by
  intro op s t reply h
  cases op with
  | assemble lines =>
    cases h
    refine ⟨fun _ _ _ => ?_, fun hno => absurd rfl (hno lines)⟩
    rw [hostAssemble_eq]
    simp
  | reset =>
    cases h
    exact ⟨fun _ hno => absurd rfl hno, fun _ => rfl⟩
  | step => exact ⟨fun hno => absurd rfl hno, fun _ => step_program (step_of_hostDo h)⟩
  | run n => exact ⟨fun _ _ hno => absurd rfl (hno n), fun _ => hostRun_program (hostRun_of_hostDo h)⟩
  | peekRegister i =>
    obtain rfl := eq_of_hostDo_peekRegister h
    simp
  | peekMemoryWord a =>
    cases h
    simp
  | pokeMemoryWord a v =>
    cases h
    simp

/-- A peek at one of the 32 registers answers its value (R150). -/
theorem hostDo_peekRegister (s : State) (r : RegNum) :
    hostDo (.peekRegister (r.toNat : Int)) s = .next (s, .word (readReg s.rf r)) := by
  have hlt := r.isLt
  have hindex : (0 : Int) ≤ r.toNat ∧ (r.toNat : Int) < 32 := by omega
  have hr : BitVec.ofInt 5 (r.toNat : Int) = r := by simp
  rw [hostDo, peekRegister, if_pos hindex, hr, andThen_next]

/-- Settles O49: index 0 is the register x0. -/
theorem peekRegisterReadsOneRegister : Obligations.PeekRegisterReadsOneRegister := by
  refine ⟨hostDo_peekRegister, fun s i hi => ?refused, fun s => ?x0⟩
  case refused =>
    have hindex : ¬(0 ≤ i ∧ i < 32) := by omega
    rw [hostDo, peekRegister, if_neg hindex]
    rfl
  case x0 => simpa using hostDo_peekRegister s 0#5

/-! ### Placing a word -/

/-- The freeze that `withFetched` looks for is a taken branch in EX. -/
theorem branchTakenIn_iff (s : State) : branchTakenIn s = true ↔ TakenIn s := by
  rw [branchTakenIn, inStage_eq]
  simp only
  rw [stage_execute]
  by_cases h : TakenIn s
  · have ⟨d, hd, ht⟩ := h
    simp [redirect_of_taken hd ht, h]
  · simp [redirect_of_not_taken h, h]

/-- `withFetched` leaves no taken branch in EX. -/
theorem not_takenIn_withFetched (s : State) (w : Word) : ¬TakenIn (withFetched s w) := by
  by_cases h : branchTakenIn s = true
  · exact not_takenIn_of_bubble (by simp [withFetched, h])
  · have hidex : (withFetched s w).idex = s.idex := by simp [withFetched, h]
    rintro ⟨d, hd, ht⟩
    exact h ((branchTakenIn_iff s).mpr ⟨d, hidex ▸ hd, ht⟩)

theorem programAddress_withFetched (s : State) (w : Word) : programAddress (withFetched s w).pc.toNat = true := by
  unfold withFetched
  simp only
  split
  · assumption
  · decide

theorem fetchWord_withFetched (s : State) (w : Word) :
    fetchWord (withFetched s w).program (withFetched s w).pc = some w :=
  fetchWord_installWord_same s.program w _

/-- Settles O57: the placed word is at PC, and nothing suppresses the fetch. -/
theorem placedWordIsFetchedNext : Obligations.PlacedWordIsFetchedNext := by
  intro s w
  have hword : BitVec.ofNat 32 (w % 2 ^ 32) = BitVec.ofNat 32 w := BitVec.eq_of_toNat_eq (by simp)
  rw [State.withFetchWord, hword]
  have hfetch := fetchWord_withFetched s (BitVec.ofNat 32 w)
  obtain ⟨hifid, hpc⟩ := cycleState_fetch (not_takenIn_withFetched s (BitVec.ofNat 32 w)) hfetch
  exact ⟨_, _, step_of_running (running_of_fetch hfetch), hifid, rfl, rfl,
    programAddress_withFetched s (BitVec.ofNat 32 w), hpc⟩

/-! ### Straight-line programs (R146)

At cycle k the word at line j of such a program stands k - j stages past its fetch. -/

/-- The address of line `j` of a program. -/
def lineAddress (j : Nat) : Word := BitVec.ofNat 32 (0x80 + 4 * j)

theorem lineAddress_succ (j : Nat) : lineAddress (j + 1) = lineAddress j + 4#32 := by
  rw [lineAddress, lineAddress, ← BitVec.ofNat_add]
  congr 1

/-- The program has words that do not branch at its first `n` lines, and none after them. -/
structure StraightLine (p : Program) (n : Nat) : Prop where
  word : ∀ j, j < n → ∃ w, fetchWord p (lineAddress j) = some w ∧ NoBranch w
  past : fetchWord p (lineAddress n) = none

/-- The word that stands `d` stages past its fetch at cycle `k`: that of line `k - d`, if there is such a line. -/
def wordAtDepth (p : Program) (n k d : Nat) : Option Word :=
  if d ≤ k ∧ k < n + d then fetchWord p (lineAddress (k - d)) else none

/-- Over a cycle each word moves one stage on. -/
theorem wordAtDepth_succ (p : Program) (n k d : Nat) : wordAtDepth p n (k + 1) (d + 1) = wordAtDepth p n k d := by
  have hiff : (d + 1 ≤ k + 1 ∧ k + 1 < n + (d + 1)) ↔ (d ≤ k ∧ k < n + d) := by omega
  rw [wordAtDepth, wordAtDepth, Nat.add_sub_add_right, if_congr hiff rfl rfl]

/-- There is no such word exactly before the first has come that far and after the last has. -/
theorem wordAtDepth_eq_none_iff {p : Program} {n : Nat} (hp : StraightLine p n) (k d : Nat) :
    wordAtDepth p n k d = none ↔ k < d ∨ n + d ≤ k := by
  unfold wordAtDepth
  split
  · obtain ⟨w, hw, -⟩ := hp.word (k - d) (by omega)
    rw [hw]
    exact iff_of_false (by simp) (by omega)
  · exact iff_of_true rfl (by omega)

/-- No word in flight branches. -/
theorem noBranch_of_wordAtDepth {p : Program} {n k d : Nat} {w : Word} (hp : StraightLine p n)
    (h : wordAtDepth p n k d = some w) : NoBranch w := by
  unfold wordAtDepth at h
  split at h
  · obtain ⟨v, hv, hnb⟩ := hp.word (k - d) (by omega)
    cases hv.symm.trans h
    exact hnb
  · cases h

/-- The state of the machine at cycle `k` of a straight-line program of `n` words. -/
structure StraightLineAt (p : Program) (n k : Nat) (s : State) : Prop where
  program : s.program = p
  cycle : s.cycle = k
  pc : s.pc = lineAddress (min k n)
  ifid : s.ifid.word IfId.ir = wordAtDepth p n k 1
  idex : s.idex.word IdEx.ir = wordAtDepth p n k 2
  exmem : s.exmem.word ExMem.ir = wordAtDepth p n k 3
  memwb : s.memwb.word MemWb.ir = wordAtDepth p n k 4

/-- A stage without a word is a Bubble. -/
theorem word_eq_none_iff {ρ : Type} (ir : ρ → Word) (latch : Latch ρ) : latch.word ir = none ↔ latch = .bubble := by
  cases latch <;> simp

namespace StraightLineAt

variable {p : Program} {n k : Nat} {s : State}

/-- Reset is cycle 0: no stage holds a word. -/
theorem reset (s : State) (n : Nat) : StraightLineAt s.program n 0 (hostReset s) where
  program := rfl
  cycle := rfl
  pc := by rw [Nat.zero_min]; rfl
  ifid := rfl
  idex := rfl
  exmem := rfl
  memwb := rfl

/-- The word at PC is that of line `k`, while there is one. -/
theorem fetch (hp : StraightLine p n) (h : StraightLineAt p n k s) :
    fetchWord s.program s.pc = wordAtDepth p n k 0 := by
  rw [h.program, h.pc]
  by_cases hk : k < n
  · rw [min_eq_left hk.le, wordAtDepth, if_pos ⟨k.zero_le, hk⟩, Nat.sub_zero]
  · rw [min_eq_right (not_lt.mp hk), hp.past, (wordAtDepth_eq_none_iff hp k 0).mpr (.inr (not_lt.mp hk))]

/-- Nothing that is in EX branches. -/
theorem not_takenIn (hp : StraightLine p n) (h : StraightLineAt p n k s) : ¬TakenIn s := by
  rintro ⟨d, hd, ht⟩
  have hword := h.idex
  rw [hd, word_record] at hword
  obtain ⟨hblt, hbge⟩ := noBranch_of_wordAtDepth hp hword.symm
  exact (branch_of_taken ht).elim hblt hbge

/-- PC moves to the next line, and stays past the last one. -/
theorem pc_succ (hp : StraightLine p n) (h : StraightLineAt p n k s) :
    (cycleState s).pc = lineAddress (min (k + 1) n) := by
  rw [cycleState_pc_of_not_taken (h.not_takenIn hp)]
  by_cases hk : k < n
  · obtain ⟨w, hw⟩ := Option.ne_none_iff_exists'.mp
      (mt (wordAtDepth_eq_none_iff hp k 0).mp (by omega : ¬(k < 0 ∨ n + 0 ≤ k)))
    rw [h.fetch hp, hw, fetchUnit_some, h.pc, min_eq_left hk.le, min_eq_left hk, lineAddress_succ]
  · rw [h.fetch hp, (wordAtDepth_eq_none_iff hp k 0).mpr (.inr (not_lt.mp hk)), fetchUnit_none, h.pc,
      min_eq_right (by omega), min_eq_right (by omega)]

/-- A clock cycle leads to the next cycle's state. -/
theorem cycle_succ (hp : StraightLine p n) (h : StraightLineAt p n k s) :
    StraightLineAt p n (k + 1) (cycleState s) where
  program := h.program
  cycle := by rw [cycleState_cycle, h.cycle]
  pc := h.pc_succ hp
  ifid := by rw [cycleState_ifid_word (h.not_takenIn hp), h.fetch hp, wordAtDepth_succ]
  idex := by rw [cycleState_idex_word (h.not_takenIn hp), h.ifid, wordAtDepth_succ]
  exmem := by rw [cycleState_exmem, executeOut_word, h.idex, wordAtDepth_succ]
  memwb := by rw [cycleState_memwb, memoryOut_word, h.exmem, wordAtDepth_succ]

/-- The machine is COMPLETE once the last word has passed the four stages after its fetch (R143). -/
theorem status_iff (hp : StraightLine p n) (hn : 1 ≤ n) (h : StraightLineAt p n k s) :
    status s = .complete ↔ n + 4 ≤ k := by
  rw [status_eq_complete, h.fetch hp, ← word_eq_none_iff IfId.ir, ← word_eq_none_iff IdEx.ir,
    ← word_eq_none_iff ExMem.ir, ← word_eq_none_iff MemWb.ir, h.ifid, h.idex, h.exmem, h.memwb]
  simp only [wordAtDepth_eq_none_iff hp]
  omega

theorem running (hp : StraightLine p n) (hn : 1 ≤ n) (h : StraightLineAt p n k s) (hk : k < n + 4) :
    status s = .running :=
  (status_eq_running s).mpr fun hc => absurd ((h.status_iff hp hn).mp hc) (by omega)

/-- As many steps on, as many cycles on, until the machine is COMPLETE. -/
theorem of_runs (hp : StraightLine p n) (hn : 1 ≤ n) {j : Nat} {t : State} (h : StraightLineAt p n k s)
    (hj : k + j ≤ n + 4) (hrun : Runs j s t) : StraightLineAt p n (k + j) t := by
  induction j generalizing k s with
  | zero => exact runs_zero.mp hrun ▸ h
  | succ j ih =>
    have hrest := (runs_succ_running (h.running hp hn (by omega))).mp hrun
    have hlast := ih (h.cycle_succ hp) (by omega) hrest
    rwa [Nat.add_right_comm] at hlast

end StraightLineAt

/-- Settles O48: from reset, k steps lead to cycle k, and the machine is COMPLETE from cycle n + 4 on. -/
theorem straightLineProgramTakesNPlusFourCycles : Obligations.StraightLineProgramTakesNPlusFourCycles := by
  intro s n hn _ hword hpast
  have hp : StraightLine s.program n := ⟨hword, hpast⟩
  have after {k : Nat} {t : State} (hk : k ≤ n + 4) (hrun : Runs k (hostReset s) t) :
      StraightLineAt s.program n k t := by
    have h := (StraightLineAt.reset s n).of_runs hp hn (by omega) hrun
    rwa [Nat.zero_add] at h
  refine ⟨fun k t hk hrun => (after hk.le hrun).running hp hn hk, ?_⟩
  obtain ⟨t, hrun⟩ := runs_total (n + 4) (hostReset s)
  have ht := after le_rfl hrun
  exact ⟨t, hrun, (ht.status_iff hp hn).mpr le_rfl, ht.cycle, by rw [ht.pc, min_eq_right (by omega), lineAddress]⟩

end Sys2Proof.Machine

/-! # Proofs: AND, OR and ORI (41_logical.md)

The three instructions differ in the function that EX computes and in nothing else: their rules are `logicalRules` of
that function, whose clock cycle is described once. What a word does on its way through the pipeline behind nothing is
described for every class, in `word_executed_after_three_cycles` and the two theorems after it. -/

namespace Sys2Proof

/-- The bits that the instruction's format reads as the immediate are decoded as rs2 too (30_encoding.md R107). -/
theorem rs2Of_eq_immIOf (w : Word) : rs2Of w = (immIOf w).extractLsb' 0 5 := by
  apply BitVec.eq_of_getLsbD_eq
  intro i hi
  simp [rs2Of, immIOf, hi, show i < 12 by omega]

theorem immGen_of_and {w : Word} (h : classOf w = .and) : immGen w = 0#32 := by rw [immGen_of_class, h]

theorem immGen_of_or {w : Word} (h : classOf w = .or) : immGen w = 0#32 := by rw [immGen_of_class, h]

theorem immGen_of_ori {w : Word} (h : classOf w = .ori) : immGen w = (immIOf w).signExtend 32 := by
  rw [immGen_of_class, h]

end Sys2Proof

namespace Sys2Proof.Machine

/-! ### The immediate of ORI (R182) -/

theorem getLsbD_lowTwelve {i : Nat} (hi : i < 32) : (0x00000FFF#32).getLsbD i = decide (i < 12) := by
  have all : ∀ j : Fin 32, (0x00000FFF#32).getLsbD j = decide (j.val < 12) := by decide
  exact all ⟨i, hi⟩

/-- Masking the sign-extended immediate leaves it zero-extended. -/
theorem oriImmediate_signExtend (imm : BitVec 12) : oriImmediate (imm.signExtend 32) = imm.setWidth 32 := by
  apply BitVec.eq_of_getLsbD_eq
  intro i hi
  rw [oriImmediate, BitVec.getLsbD_and, getLsbD_lowTwelve hi, BitVec.getLsbD_signExtend, BitVec.getLsbD_setWidth]
  by_cases h12 : i < 12
  · simp [hi, h12]
  · simp [h12, BitVec.getLsbD_of_ge imm i (not_lt.mp h12)]

/-- Settles O36: the zero-extended immediate is 20 zero bits above the immediate itself. -/
theorem oriLeavesTheUpperBits : Obligations.OriLeavesTheUpperBits := by
  intro a imm
  have happend : oriImmediate (imm.signExtend 32) = 0#20 ++ imm := by
    rw [oriImmediate_signExtend, BitVec.setWidth_eq_append (by decide)]
    rfl
  rw [happend, BitVec.extractLsb'_or, BitVec.extractLsb'_or, BitVec.extractLsb'_append_eq_left,
    BitVec.extractLsb'_append_eq_right, BitVec.or_zero]
  exact ⟨rfl, rfl⟩

/-! ### The clock cycle of one instruction, by the stage that holds it -/

section
variable {i : Instr} {k : StageRules} {s : State}

theorem cycleOf_exmem_of_record {d : IdEx} (hd : s.idex = .record d) (hi : decode d.ir = i) :
    (cycleOf i k s).exmem = executeUnit k (.record d) := by
  rw [cycleOf_exmem, hd, only_record_of (by simp [hi])]

theorem cycleOf_memwb_of_record {e : ExMem} (he : s.exmem = .record e) (hi : decode e.ir = i) :
    (cycleOf i k s).memwb = (memoryUnit k (.record e) s.dmem).1 := by
  rw [cycleOf_memwb, he, only_record_of (by simp [hi])]

theorem cycleOf_wbr_of_record {m : MemWb} (hm : s.memwb = .record m) (hi : decode m.ir = i) :
    (cycleOf i k s).wbr = (writeBackUnit k (.record m) s.rf).2 := by
  rw [cycleOf_wbr, hm, only_record_of (by simp [hi])]

theorem cycleOf_rf_of_record {m : MemWb} (hm : s.memwb = .record m) (hi : decode m.ir = i) :
    (cycleOf i k s).rf = (writeBackUnit k (.record m) s.rf).1 := by
  rw [cycleOf_rf, hm, only_record_of (by simp [hi])]

/-- An instruction that is not in WB writes no register. -/
theorem cycleOf_rf_of_not_in_writeBack (h : ∀ m, s.memwb = .record m → decode m.ir ≠ i) :
    (cycleOf i k s).rf = s.rf := by
  rw [cycleOf_rf]
  cases hkept : s.memwb.only fun m => decode m.ir == i with
  | bubble => rw [writeBackUnit_bubble]
  | record m =>
    obtain ⟨hm, hi⟩ := only_eq_record hkept
    exact absurd (eq_of_beq hi) (h m hm)

/-- An instruction whose destination is `rd` writes no other register. -/
theorem readReg_cycleOf_of_ne {rd r : RegNum} (hdest : k.dest = some rd) (hr : r ≠ rd) :
    readReg (cycleOf i k s).rf r = readReg s.rf r := by
  rw [cycleOf_rf]
  cases s.memwb.only fun m => decode m.ir == i with
  | bubble => rw [writeBackUnit_bubble]
  | record m => rw [writeBackUnit_some hdest, readReg_writeReg, if_neg fun h => hr h.1]

/-- In WB, its destination takes the value, and x0 still reads 0. -/
theorem readReg_cycleOf_dest {rd : RegNum} {m : MemWb} (hdest : k.dest = some rd) (hm : s.memwb = .record m)
    (hi : decode m.ir = i) : readReg (cycleOf i k s).rf rd = if rd = 0#5 then 0#32 else k.select m := by
  rw [cycleOf_rf_of_record hm hi, writeBackUnit_some hdest, readReg_writeReg]
  by_cases h0 : rd = 0#5 <;> simp [h0]

end

/-! ### The clock cycle of a logical instruction (R183) -/

/-- The rules of an instruction that writes the function `f` of A, B and IMM to `rd`. -/
def logicalRules (rd : RegNum) (f : Word → Word → Word → Word) : StageRules where
  execute := fun a b imm _ => (f a b imm, false)
  access := noAccess
  select := aluResult
  dest := some rd

/-- AND is such an instruction (R180). -/
theorem exec_and_eq (rd rs1 rs2 : RegNum) (funct7 : BitVec 7) (s : State) :
    exec (.and rd rs1 rs2 funct7) s =
      .next (cycleOf (.and rd rs1 rs2 funct7) (logicalRules rd fun a b _ => a &&& b) s) := rfl

/-- OR is such an instruction (R181). -/
theorem exec_or_eq (rd rs1 rs2 : RegNum) (funct7 : BitVec 7) (s : State) :
    exec (.or rd rs1 rs2 funct7) s =
      .next (cycleOf (.or rd rs1 rs2 funct7) (logicalRules rd fun a b _ => a ||| b) s) := rfl

/-- ORI is such an instruction (R182). -/
theorem exec_ori_eq (rd rs1 : RegNum) (imm : BitVec 12) (s : State) :
    exec (.ori rd rs1 imm) s =
      .next (cycleOf (.ori rd rs1 imm) (logicalRules rd fun a _ imm => a ||| (imm &&& 0x00000FFF#32)) s) := rfl

/-- What EX, MEM and WB do with the instruction `i`, which writes the function `f` of A, B and IMM to `rd`, in a clock
cycle from `s` to `t`, and what the cycle leaves alone. -/
def LogicalBackEnd (i : Instr) (rd : RegNum) (f : Word → Word → Word → Word) (s t : State) : Prop :=
  (∀ d, s.idex = .record d → decode d.ir = i → t.exmem = .record ⟨d.ir, f d.a d.b d.imm, d.b, false⟩) ∧
  (∀ e, s.exmem = .record e → decode e.ir = i → t.memwb = .record ⟨e.ir, 0#32, e.aluOutput⟩) ∧
  (∀ m, s.memwb = .record m → decode m.ir = i →
    t.wbr = .record ⟨m.ir, rd, m.aluOutput, decide (rd ≠ 0#5)⟩ ∧
      readReg t.rf rd = if rd = 0#5 then 0#32 else m.aluOutput) ∧
  ((∀ m, s.memwb = .record m → decode m.ir ≠ i) → t.rf = s.rf) ∧
  OnlyRegister rd s t

/-- The clock cycle of an instruction with such rules. -/
theorem logicalBackEnd_cycleOf {i : Instr} {rd : RegNum} (hdest : i.dest = some rd)
    (f : Word → Word → Word → Word) (s : State) :
    LogicalBackEnd i rd f s (cycleOf i (logicalRules rd f) s) := by
  refine ⟨fun d hd hi => ?execute, fun e he hi => ?memory, fun m hm hi => ⟨?record, ?value⟩,
    fun h => cycleOf_rf_of_not_in_writeBack h, fun a => ?bytes, fun r hr => readReg_cycleOf_of_ne rfl hr, rfl, rfl⟩
  case execute => exact cycleOf_exmem_of_record hd hi
  case memory => exact cycleOf_memwb_of_record he hi
  case record =>
    have hrd : rd = rdOf m.ir := dest_decode (hi ▸ hdest)
    rw [cycleOf_wbr_of_record hm hi, writeBackUnit_some rfl, ← hrd]
    rfl
  case value => exact readReg_cycleOf_dest rfl hm hi
  case bytes => rw [cycleOf_dmem, memoryUnit_dmem_of_noAccess rfl]

/-- Settles O20: `logicalRules` of A and B, over the operands that an R-format word selects. -/
theorem andCompletesInEveryStage : Obligations.AndCompletesInEveryStage := by
  intro rd rs1 rs2 funct7 s
  refine ⟨_, exec_and_eq rd rs1 rs2 funct7 s, frontEnd_cycleOf _ fun w hw => ?operands, logicalBackEnd_cycleOf rfl _ s⟩
  obtain ⟨hcls, -, rfl, rfl, -⟩ := decode_eq_and_iff.mp hw
  exact ⟨rfl, rfl, immGen_of_and hcls⟩

/-- Settles O21: the same of A or B. -/
theorem orCompletesInEveryStage : Obligations.OrCompletesInEveryStage := by
  intro rd rs1 rs2 funct7 s
  refine ⟨_, exec_or_eq rd rs1 rs2 funct7 s, frontEnd_cycleOf _ fun w hw => ?operands, logicalBackEnd_cycleOf rfl _ s⟩
  obtain ⟨hcls, -, rfl, rfl, -⟩ := decode_eq_or_iff.mp hw
  exact ⟨rfl, rfl, immGen_of_or hcls⟩

/-- Settles O22: the same of A or the low 12 bits of IMM; B is read at the immediate's low five bits (R107). -/
theorem oriCompletesInEveryStage : Obligations.OriCompletesInEveryStage := by
  intro rd rs1 imm s
  refine ⟨_, exec_ori_eq rd rs1 imm s, frontEnd_cycleOf _ fun w hw => ?operands, logicalBackEnd_cycleOf rfl _ s⟩
  obtain ⟨hcls, -, rfl, rfl⟩ := decode_eq_ori_iff.mp hw
  exact ⟨rfl, by rw [rs2Of_eq_immIOf], immGen_of_ori hcls⟩

/-! ### A word that is fetched with nothing in flight (40_pipeline.md R146)

Whatever follows it, for three cycles nothing ahead of it writes, in the fourth its own access is made, and in the fifth
its own result is written. -/

/-- A run, then one more cycle of a running machine. -/
theorem runs_cycleState {k : Nat} {s t : State} (hrun : Runs k s t) (h : status t = .running) :
    Runs (k + 1) s (cycleState t) := by
  induction k generalizing s with
  | zero =>
    obtain rfl := runs_zero.mp hrun
    exact (runs_succ_running h).mpr rfl
  | succ k ih =>
    obtain ⟨u, hstep, hrest⟩ := runs_succ.mp hrun
    exact runs_succ.mpr ⟨u, hstep, ih hrest⟩

/-- With WB empty no register is written. -/
theorem cycleState_rf_of_bubble {s : State} (h : s.memwb = .bubble) : (cycleState s).rf = s.rf := by
  rw [cycleState_rf, writeBackOut_bubble h]

/-- With MEM empty no byte is written, and MEM/WB becomes empty. -/
theorem cycleState_memory_of_bubble {s : State} (h : s.exmem = .bubble) :
    (cycleState s).memwb = .bubble ∧ (cycleState s).dmem = s.dmem := by
  rw [cycleState_memwb, cycleState_dmem, memoryOut_bubble h]
  exact ⟨rfl, rfl⟩

theorem cycleState_exmem_of_bubble {s : State} (h : s.idex = .bubble) : (cycleState s).exmem = .bubble := by
  rw [cycleState_exmem, executeOut_bubble h]

/-- What EX computes for the word `w` fetched at `s`, from the operands as they are at `s`: ALUOUTPUT and cond. -/
def executedFrom (s : State) (w : Word) : Word × Bool :=
  refExecRule (classOf w) (readReg s.rf (rs1Of w)) (readReg s.rf (rs2Of w)) (immGen w) s.pc

/-- After IF, ID and EX the word is in EX/MEM, and no register and no byte has changed. -/
theorem word_executed_after_three_cycles {s : State} {w : Word} (hdrained : Drained s)
    (hw : fetchWord s.program s.pc = some w) :
    ∃ t, Runs 3 s t ∧
      t.exmem = .record ⟨w, (executedFrom s w).1, readReg s.rf (rs2Of w), (executedFrom s w).2⟩ ∧
      t.memwb = .bubble ∧ t.rf = s.rf ∧ t.dmem = s.dmem := by
  obtain ⟨hifid, hidex, hexmem, hmemwb⟩ := hdrained
  have hnot := not_takenIn_of_bubble hidex
  have hrun1 : Runs 1 s (cycleState s) := runs_cycleState rfl (running_of_fetch hw)
  have ⟨hifid1, _⟩ := cycleState_fetch hnot hw
  have hidex1 : (cycleState s).idex = .bubble := by
    rw [cycleState_idex_of_not_taken hnot, hifid, decodeUnit_bubble]
  have hexmem1 := cycleState_exmem_of_bubble hidex
  have ⟨hmemwb1, hdmem1⟩ := cycleState_memory_of_bubble hexmem
  have hrf1 := cycleState_rf_of_bubble hmemwb
  have hrun2 := runs_cycleState hrun1 (running_of_stage (.inl (by simp [hifid1])))
  have hidex2 : (cycleState (cycleState s)).idex = .record (decodeRecord ⟨w, s.pc + 4#32, s.pc⟩ s.rf) := by
    rw [cycleState_idex_of_not_taken (not_takenIn_of_bubble hidex1), hifid1, decodeUnit_record, hrf1]
  have hexmem2 := cycleState_exmem_of_bubble hidex1
  have ⟨hmemwb2, hdmem2⟩ := cycleState_memory_of_bubble hexmem1
  have hrf2 := cycleState_rf_of_bubble hmemwb1
  have hrun3 := runs_cycleState hrun2 (running_of_stage (.inr (.inl (by simp [hidex2]))))
  have hexmem3 := executeOut_of_class hidex2
  have ⟨hmemwb3, hdmem3⟩ := cycleState_memory_of_bubble hexmem2
  have hrf3 := cycleState_rf_of_bubble hmemwb2
  exact ⟨_, hrun3, hexmem3, hmemwb3, hrf3.trans (hrf2.trans hrf1), hdmem3.trans (hdmem2.trans hdmem1)⟩

/-- After MEM the word is in MEM/WB, its access has been made, and no register has changed. -/
theorem word_accessed_after_four_cycles {s : State} {w : Word} (hdrained : Drained s)
    (hw : fetchWord s.program s.pc = some w) :
    ∃ t, Runs 4 s t ∧
      t.memwb = .record ⟨w, if classOf w = .lw then memRead s.dmem (executedFrom s w).1 else 0#32,
        (executedFrom s w).1⟩ ∧
      t.rf = s.rf ∧
      t.dmem = if classOf w = .sw then memWrite s.dmem (executedFrom s w).1 (readReg s.rf (rs2Of w)) else s.dmem := by
  obtain ⟨t, hrun, hexmem, hmemwb, hrf, hdmem⟩ := word_executed_after_three_cycles hdrained hw
  have hrunning : status t = .running := running_of_stage (.inr (.inr (.inl (by simp [hexmem]))))
  refine ⟨_, runs_cycleState hrun hrunning, ?_, (cycleState_rf_of_bubble hmemwb).trans hrf, ?_⟩
  · rw [cycleState_memwb, memoryOut_of_class hexmem, hdmem]
  · rw [cycleState_dmem, memoryOut_of_class hexmem, hdmem]

/-- After WB the word's result is in its destination register, and no other register has changed. -/
theorem word_written_after_five_cycles {s : State} {w : Word} (hdrained : Drained s)
    (hw : fetchWord s.program s.pc = some w) :
    ∃ t, Runs 5 s t ∧ t.rf =
      if writesRegister (classOf w) then
        writeReg s.rf (rdOf w)
          (if classOf w = .lw then memRead s.dmem (executedFrom s w).1 else (executedFrom s w).1)
      else s.rf := by
  obtain ⟨t, hrun, hmemwb, hrf, -⟩ := word_accessed_after_four_cycles hdrained hw
  have hrunning : status t = .running := running_of_stage (.inr (.inr (.inr (by simp [hmemwb]))))
  refine ⟨_, runs_cycleState hrun hrunning, ?_⟩
  rw [cycleState_rf, writeBackOut_of_class hmemwb, hrf]
  by_cases hlw : classOf w = .lw <;> simp [hlw]

/-- Settles O29: the register file after five cycles, read register by register, with EX's rule of each class. -/
theorem logicalResultAfterFiveCycles : Obligations.LogicalResultAfterFiveCycles := by
  intro s w hdrained hw
  obtain ⟨t, hrun, hrf⟩ := word_written_after_five_cycles hdrained hw
  refine ⟨t, hrun, fun rd rs1 rs2 funct7 hand r => ?and, fun rd rs1 rs2 funct7 hor r => ?or,
    fun rd rs1 imm hori r => ?ori⟩
  case and =>
    obtain ⟨hcls, rfl, rfl, rfl, -⟩ := decode_eq_and_iff.mp hand
    simp [hrf, executedFrom, hcls, writesRegister, refExecRule, readReg_writeReg]
  case or =>
    obtain ⟨hcls, rfl, rfl, rfl, -⟩ := decode_eq_or_iff.mp hor
    simp [hrf, executedFrom, hcls, writesRegister, refExecRule, readReg_writeReg]
  case ori =>
    obtain ⟨hcls, rfl, rfl, rfl⟩ := decode_eq_ori_iff.mp hori
    have himm : immGen w &&& 0x00000FFF#32 = (immIOf w).setWidth 32 := by
      rw [immGen_of_ori hcls, ← oriImmediate_signExtend, oriImmediate]
    simp [hrf, executedFrom, hcls, writesRegister, refExecRule, himm, readReg_writeReg]

end Sys2Proof.Machine

/-! # Proofs: LW and SW (42_load_store.md)

Both instructions compute the same address in EX and differ in MEM. What a clock cycle of one instruction does to data
memory is said first; the two obligations over five cycles then read the address off
`executedFrom_of_load_or_store`. -/

namespace Sys2Proof

theorem immGen_of_lw {w : Word} (h : classOf w = .lw) : immGen w = (immIOf w).signExtend 32 := by
  rw [immGen_of_class, h]

theorem immGen_of_sw {w : Word} (h : classOf w = .sw) : immGen w = (immSOf w).signExtend 32 := by
  rw [immGen_of_class, h]

end Sys2Proof

namespace Sys2Proof.Machine

/-! ### Data memory in the clock cycle of one instruction -/

section
variable {i : Instr} {k : StageRules} {s : State}

theorem cycleOf_dmem_of_record {e : ExMem} (he : s.exmem = .record e) (hi : decode e.ir = i) :
    (cycleOf i k s).dmem = (k.access e.aluOutput e.b s.dmem).2 := by
  rw [cycleOf_dmem, he, only_record_of (by simp [hi]), memoryUnit_record]

/-- An instruction that is not in MEM stores nothing. -/
theorem cycleOf_dmem_of_not_in_memory (h : ∀ e, s.exmem = .record e → decode e.ir ≠ i) :
    (cycleOf i k s).dmem = s.dmem := by
  rw [cycleOf_dmem]
  cases hkept : s.exmem.only fun e => decode e.ir == i with
  | bubble => rw [memoryUnit_bubble]
  | record e =>
    obtain ⟨he, hi⟩ := only_eq_record hkept
    exact absurd (eq_of_beq hi) (h e he)

/-- An instruction whose access only reads stores nothing in any stage. -/
theorem cycleOf_dmem_of_read_only (h : ∀ alu b m, (k.access alu b m).2 = m) : (cycleOf i k s).dmem = s.dmem := by
  by_cases hin : ∃ e, s.exmem = .record e ∧ decode e.ir = i
  · obtain ⟨e, he, hi⟩ := hin
    rw [cycleOf_dmem_of_record he hi, h]
  · exact cycleOf_dmem_of_not_in_memory fun e he hi => hin ⟨e, he, hi⟩

end

/-! ### The clock cycles of LW and SW -/

theorem exec_lw_eq (rd rs1 : RegNum) (imm : BitVec 12) (s : State) :
    exec (.lw rd rs1 imm) s = .next (cycleOf (.lw rd rs1 imm) (lwRules rd) s) := rfl

theorem exec_sw_eq (rs2 rs1 : RegNum) (imm : BitVec 12) (s : State) :
    exec (.sw rs2 rs1 imm) s = .next (cycleOf (.sw rs2 rs1 imm) swRules s) := rfl

/-- Settles O23: the rules of LW in each stage; B is read at the immediate's low five bits (R107). -/
theorem lwCompletesInEveryStage : Obligations.LwCompletesInEveryStage := by
  intro rd rs1 imm s
  refine ⟨_, exec_lw_eq rd rs1 imm s, frontEnd_cycleOf _ fun w hw => ?operands,
    fun d hd hi => cycleOf_exmem_of_record hd hi, fun e he hi => cycleOf_memwb_of_record he hi,
    fun m hm hi => ⟨?record, readReg_cycleOf_dest rfl hm hi⟩, cycleOf_rf_of_not_in_writeBack, fun a => ?bytes,
    fun r hr => readReg_cycleOf_of_ne rfl hr, rfl, rfl⟩
  case operands =>
    obtain ⟨hcls, -, rfl, rfl⟩ := decode_eq_lw_iff.mp hw
    exact ⟨rfl, by rw [rs2Of_eq_immIOf], immGen_of_lw hcls⟩
  case record =>
    obtain ⟨-, hrd, -, -⟩ := decode_eq_lw_iff.mp hi
    rw [cycleOf_wbr_of_record hm hi, writeBackUnit_some rfl, hrd]
    rfl
  case bytes => rw [cycleOf_dmem_of_read_only fun _ _ _ => rfl]

/-- Settles O24: the rules of SW in each stage; its store is read back where it is admitted, and seen nowhere else. -/
theorem swCompletesInEveryStage : Obligations.SwCompletesInEveryStage := by
  intro rs2 rs1 imm s
  refine ⟨_, exec_sw_eq rs2 rs1 imm s, frontEnd_cycleOf _ fun w hw => ?operands,
    fun d hd hi => cycleOf_exmem_of_record hd hi, fun e he hi => ?memory, cycleOf_dmem_of_not_in_memory,
    fun m hm hi => cycleOf_wbr_of_record hm hi, writeBackUnit_rf_of_no_dest rfl _ _, rfl, rfl⟩
  case operands =>
    obtain ⟨hcls, rfl, rfl, rfl⟩ := decode_eq_sw_iff.mp hw
    exact ⟨rfl, rfl, immGen_of_sw hcls⟩
  case memory =>
    have hdmem : (cycleOf (.sw rs2 rs1 imm) swRules s).dmem = memWrite s.dmem e.aluOutput e.b :=
      cycleOf_dmem_of_record he hi
    rw [hdmem]
    refine ⟨cycleOf_memwb_of_record he hi, fun hwf hadmit => ⟨?word, fun k hk => ?byte⟩, fun a hout => ?frame⟩
    case word => rw [memRead_memWrite hwf, if_pos ⟨rfl, hadmit⟩]
    case byte => exact readByte_memWrite_at hwf hadmit e.b hk
    case frame => exact readByte_memWrite_outside _ _ _ _ hout

/-! ### LW and SW fetched with nothing in flight -/

/-- The address that EX computes for either instruction (R202). -/
theorem executedFrom_of_load_or_store {w : Word} (h : classOf w = .lw ∨ classOf w = .sw) (s : State) :
    executedFrom s w = (readReg s.rf (rs1Of w) + immGen w, false) := by
  obtain hcls | hcls := h <;> rw [executedFrom, hcls, refExecRule]

/-- Settles O30: the register file after five cycles, read register by register. -/
theorem loadedWordAfterFiveCycles : Obligations.LoadedWordAfterFiveCycles := by
  intro s w rd rs1 imm hdrained hw hlw
  obtain ⟨hcls, rfl, rfl, rfl⟩ := decode_eq_lw_iff.mp hlw
  obtain ⟨t, hrun, hrf⟩ := word_written_after_five_cycles hdrained hw
  have hwritten : t.rf = writeReg s.rf (rdOf w)
      (memRead s.dmem (readReg s.rf (rs1Of w) + (immIOf w).signExtend 32)) := by
    have hwrites : writesRegister (classOf w) = true := by rw [hcls, writesRegister]
    rw [hrf, if_pos hwrites, if_pos hcls, executedFrom_of_load_or_store (.inl hcls), immGen_of_lw hcls]
  exact ⟨t, hrun, fun r => by rw [hwritten, readReg_writeReg]⟩

/-- Settles O31: the store is made in the fourth cycle, and the fifth writes no register. -/
theorem storedWordAfterFourCycles : Obligations.StoredWordAfterFourCycles := by
  intro s w rs2 rs1 imm hdrained hw hsw
  obtain ⟨hcls, rfl, rfl, rfl⟩ := decode_eq_sw_iff.mp hsw
  obtain ⟨t, hrun4, -, -, hdmem⟩ := word_accessed_after_four_cycles hdrained hw
  obtain ⟨u, hrun5, hrf⟩ := word_written_after_five_cycles hdrained hw
  have hstored : t.dmem = memWrite s.dmem (readReg s.rf (rs1Of w) + (immSOf w).signExtend 32)
      (readReg s.rf (rs2Of w)) := by
    rw [hdmem, if_pos hcls, executedFrom_of_load_or_store (.inr hcls), immGen_of_sw hcls]
  refine ⟨t, u, hrun4, hrun5, hstored, fun a hout => ?frame, ?registers⟩
  case frame => rw [hstored, readByte_memWrite_outside _ _ _ _ hout]
  case registers => rw [hrf, hcls, if_neg (by simp [writesRegister])]

end Sys2Proof.Machine

/-! # Proofs: BLT and BGE (43_branch.md)

The two instructions differ in the signed condition that EX tests and in nothing else: their rules are `branchRules` of
that condition. What a branch does to the words behind it follows from the redirect that its EX/MEM record orders. -/

namespace Sys2Proof

/-- Both instructions read the B immediate (30_encoding.md R98). -/
theorem immGen_of_branch {w : Word} (h : classOf w = .blt ∨ classOf w = .bge) :
    immGen w = (immBOf w).signExtend 32 := by
  rw [immGen_of_class]
  obtain hcls | hcls := h <;> rw [hcls]

end Sys2Proof

namespace Sys2Proof.Machine

/-! ### The two conditions -/

theorem signedGreaterEqual_eq_not_signedLess (a b : Word) : signedGreaterEqual a b = !signedLess a b := by
  rw [signedGreaterEqual, signedLess, ← decide_not]
  exact decide_eq_decide.mpr not_lt.symm

theorem signedLess_self (a : Word) : signedLess a a = false := decide_eq_false (lt_irrefl a.toInt)

/-- Settles O35: the order on signed words is total and irreflexive. -/
theorem bgeIsTheNegationOfBlt : Obligations.BgeIsTheNegationOfBlt := by
  intro a b
  refine ⟨signedGreaterEqual_eq_not_signedLess a b, signedLess_self a, ?equal⟩
  case equal => rw [signedGreaterEqual_eq_not_signedLess, signedLess_self, Bool.not_false]

/-! ### The clock cycle of a branch -/

/-- The rules of a branch that is taken when `cond` holds of A and B (R220 to R222). -/
def branchRules (cond : Word → Word → Prop) [DecidableRel cond] : StageRules where
  execute := fun a b imm pc => (pc + imm, decide (cond a b))
  access := noAccess
  select := aluResult
  dest := none

/-- BLT is such a branch (R220). -/
theorem exec_blt_eq (rs1 rs2 : RegNum) (offset : BitVec 13) (s : State) :
    exec (.blt rs1 rs2 offset) s =
      .next (cycleOf (.blt rs1 rs2 offset) (branchRules fun a b => a.toInt < b.toInt) s) := rfl

/-- BGE is such a branch (R221). -/
theorem exec_bge_eq (rs1 rs2 : RegNum) (offset : BitVec 13) (s : State) :
    exec (.bge rs1 rs2 offset) s =
      .next (cycleOf (.bge rs1 rs2 offset) (branchRules fun a b => a.toInt ≥ b.toInt) s) := rfl

/-- What EX, MEM and WB do with the branch `i`, taken when `cond` holds of A and B, in a clock cycle from `s` to `t`,
and what the cycle leaves alone. -/
def BranchBackEnd (i : Instr) (cond : Word → Word → Prop) [DecidableRel cond] (s t : State) : Prop :=
  (∀ d, s.idex = .record d → decode d.ir = i →
    t.exmem = .record ⟨d.ir, d.pc + d.imm, d.b, decide (cond d.a d.b)⟩ ∧ (cond d.a d.b → t.pc = d.pc + d.imm)) ∧
  (∀ e, s.exmem = .record e → decode e.ir = i → t.memwb = .record ⟨e.ir, 0#32, e.aluOutput⟩) ∧
  (∀ m, s.memwb = .record m → decode m.ir = i → t.wbr = .record ⟨m.ir, rdOf m.ir, m.aluOutput, false⟩) ∧
  t.rf = s.rf ∧ t.dmem = s.dmem ∧ t.program = s.program ∧ t.cycle = s.cycle + 1

/-- The clock cycle of an instruction with such rules; the PC of a taken branch is the redirect's target. -/
theorem branchBackEnd_cycleOf (i : Instr) (cond : Word → Word → Prop) [DecidableRel cond] (s : State) :
    BranchBackEnd i cond s (cycleOf i (branchRules cond) s) := by
  refine ⟨fun d hd hi => ⟨cycleOf_exmem_of_record hd hi, fun htaken => ?target⟩,
    fun e he hi => cycleOf_memwb_of_record he hi, fun m hm hi => cycleOf_wbr_of_record hm hi, ?registers, ?bytes,
    rfl, rfl⟩
  case target =>
    have hredirect : redirect (cycleOf i (branchRules cond) s).exmem = some (d.pc + d.imm) := by
      rw [cycleOf_exmem_of_record hd hi, executeUnit_record, redirect_record]
      exact if_pos (decide_eq_true htaken)
    rw [cycleOf_pc, hredirect, redirectFetch_some]
  case registers => rw [cycleOf_rf, writeBackUnit_rf_of_no_dest rfl]
  case bytes => rw [cycleOf_dmem, memoryUnit_dmem_of_noAccess rfl]

/-- Settles O25: `branchRules` of signed less, over the operands that a B-format word selects. -/
theorem bltCompletesInEveryStage : Obligations.BltCompletesInEveryStage := by
  intro rs1 rs2 offset s
  refine ⟨_, exec_blt_eq rs1 rs2 offset s, frontEnd_cycleOf _ fun w hw => ?operands, branchBackEnd_cycleOf _ _ s⟩
  obtain ⟨hcls, rfl, rfl, rfl⟩ := decode_eq_blt_iff.mp hw
  exact ⟨rfl, rfl, immGen_of_branch (.inl hcls)⟩

/-- Settles O26: the same of signed greater or equal. -/
theorem bgeCompletesInEveryStage : Obligations.BgeCompletesInEveryStage := by
  intro rs1 rs2 offset s
  refine ⟨_, exec_bge_eq rs1 rs2 offset s, frontEnd_cycleOf _ fun w hw => ?operands, branchBackEnd_cycleOf _ _ s⟩
  obtain ⟨hcls, rfl, rfl, rfl⟩ := decode_eq_bge_iff.mp hw
  exact ⟨rfl, rfl, immGen_of_branch (.inr hcls)⟩

/-! ### A branch fetched with nothing in flight -/

/-- What EX computes for BLT: the target, and the signed condition. -/
theorem executedFrom_of_blt {w : Word} (h : classOf w = .blt) (s : State) :
    executedFrom s w = (s.pc + (immBOf w).signExtend 32,
      decide ((readReg s.rf (rs1Of w)).toInt < (readReg s.rf (rs2Of w)).toInt)) := by
  rw [executedFrom, h, refExecRule, immGen_of_branch (.inl h)]

/-- What EX computes for BGE. -/
theorem executedFrom_of_bge {w : Word} (h : classOf w = .bge) (s : State) :
    executedFrom s w = (s.pc + (immBOf w).signExtend 32,
      decide ((readReg s.rf (rs1Of w)).toInt ≥ (readReg s.rf (rs2Of w)).toInt)) := by
  rw [executedFrom, h, refExecRule, immGen_of_branch (.inr h)]

/-- The front end of a cycle after which EX/MEM orders a redirect (40_pipeline.md R138, R140). -/
theorem cycleState_of_redirect_some {s : State} {target : Word}
    (h : redirect (cycleState s).exmem = some target) :
    (cycleState s).pc = target ∧ (cycleState s).ifid = .bubble ∧ (cycleState s).idex = .bubble := by
  rw [cycleState_exmem] at h
  rw [cycleState_pc, cycleState_ifid, cycleState_idex, h]
  exact ⟨rfl, rfl, rfl⟩

/-- Decode in a cycle after which EX/MEM orders none. -/
theorem cycleState_idex_of_redirect_none {s : State} (h : redirect (cycleState s).exmem = none) :
    (cycleState s).idex = decodeUnit s.ifid s.rf := by
  rw [cycleState_exmem] at h
  rw [cycleState_idex, h, squashDecode_none]

/-- The third cycle of a word that is fetched with nothing in flight begins with the word behind it in IF/ID. -/
theorem next_word_in_ifid_before_third_cycle {s t : State} {w : Word} (hdrained : Drained s)
    (hw : fetchWord s.program s.pc = some w) (hrun : Runs 3 s t) :
    ∃ u, t = cycleState u ∧ ∀ w', fetchWord s.program (s.pc + 4#32) = some w' →
      u.ifid = .record ⟨w', s.pc + 4#32 + 4#32, s.pc + 4#32⟩ := by
  obtain ⟨hifid, hidex, -, -⟩ := hdrained
  have ⟨hifid1, hpc1⟩ := cycleState_fetch (not_takenIn_of_bubble hidex) hw
  have hidex1 : (cycleState s).idex = .bubble := by
    rw [cycleState_idex_of_not_taken (not_takenIn_of_bubble hidex), hifid, decodeUnit_bubble]
  have hnot1 := not_takenIn_of_bubble hidex1
  have hidex2 : (cycleState (cycleState s)).idex ≠ .bubble := by
    simp [cycleState_idex_of_not_taken hnot1, hifid1]
  rw [runs_succ_running (running_of_fetch hw), runs_succ_running (running_of_stage (.inl (by simp [hifid1]))),
    runs_succ_running (running_of_stage (.inr (.inl hidex2))), runs_zero] at hrun
  refine ⟨_, hrun.symm, fun w' hw' => ?_⟩
  rw [← cycleState_program s, ← hpc1] at hw'
  rw [(cycleState_fetch hnot1 hw').1, hpc1]

/-- Settles O32: the branch's record in EX/MEM orders the redirect exactly when its condition holds. -/
theorem branchDecidesInThreeCycles : Obligations.BranchDecidesInThreeCycles := by
  intro s w rs1 rs2 offset taken hdrained hw hbranch
  obtain ⟨t, hrun, hexmem, -, hrf, hdmem⟩ := word_executed_after_three_cycles hdrained hw
  obtain ⟨u, rfl, hnext⟩ := next_word_in_ifid_before_third_cycle hdrained hw hrun
  have hexecuted : executedFrom s w = (s.pc + offset.signExtend 32, taken) := by
    obtain ⟨hblt, rfl⟩ | ⟨hbge, rfl⟩ := hbranch
    · obtain ⟨hcls, rfl, rfl, rfl⟩ := decode_eq_blt_iff.mp hblt
      exact executedFrom_of_blt hcls s
    · obtain ⟨hcls, rfl, rfl, rfl⟩ := decode_eq_bge_iff.mp hbge
      exact executedFrom_of_bge hcls s
  have hredirect : redirect (cycleState u).exmem = if taken then some (s.pc + offset.signExtend 32) else none := by
    rw [hexmem, hexecuted, redirect_record]
  refine ⟨_, hrun, hrf, hdmem, fun htaken => ?taken, fun hnot w' hw' => ?notTaken⟩
  case taken =>
    rw [if_pos htaken] at hredirect
    exact cycleState_of_redirect_some hredirect
  case notTaken =>
    rw [hnot, if_neg Bool.false_ne_true] at hredirect
    rw [cycleState_idex_of_redirect_none hredirect, hnext w' hw', decodeUnit_record]
    exact ⟨_, rfl, rfl, rfl⟩

end Sys2Proof.Machine

/-! # Proofs: the assembler (44_assembler.md)

What pass 1 and pass 2 do with one line is said once for each outcome, and every claim about a whole source is an
induction over its lines. What an operand text assembles to is said once for each kind of operand. -/

namespace Sys2Proof

/-- The failures that are RangeErrors (R266). -/
theorem AsmFailure.kind_eq_rangeError_iff (f : AsmFailure) :
    f.kind = .rangeError ↔ f = .outOfRangeImmediate ∨ f = .oddOffset ∨ f = .programTooLong := by
  cases f <;> decide

end Sys2Proof

namespace Sys2Proof.Machine

/-! ### Raw words -/

/-- The clock cycle of a raw word is that of the instruction that its bits select (R257). -/
theorem exec_word (v : Word) (s : State) : exec (.word v) s = exec (decode v) s := by
  cases h : decode v with
  | word w => rw [(decode_eq_word_iff.mp h).2]
  | _ => simp only [exec, execWord, h]

/-- Settles O28. -/
theorem rawWordRunsAsItsClass : Obligations.RawWordRunsAsItsClass := fun v s =>
  ⟨exec_word v s, _, (exec_word v s).trans (exec_decode v s)⟩

/-! ### The outcome of an assemble -/

/-- Settles O52: an assemble touches the program alone, and the outcome decides which one it installs. -/
theorem assembleInstallsOrEmpties : Obligations.AssembleInstallsOrEmpties := by
  intro lines s
  exact ⟨fun p hok => by rw [hostAssemble, hok], fun e herror => by rw [hostAssemble, herror]⟩

/-! ### Pass 1, line by line -/

section PassOne

variable {n pc : Nat} {labels table : LabelTable} {placed : List PlacedLine} {l : List Char} {ls : List (List Char)}

/-- A line that pass 1 accepts has no instruction part and takes no address, or it is placed at `pc`, inside the
PROGRAM segment (R246, R259). -/
theorem passOne_cons_ok (h : passOne n pc labels (l :: ls) = .ok (table, placed)) :
    ∃ labels',
      (instructionBearing l = false ∧ passOne (n + 1) pc labels' ls = .ok (table, placed)) ∨
      (instructionBearing l = true ∧ pc < 0x100 ∧ ∃ part rest, placed = ⟨n, pc, part⟩ :: rest ∧
        passOne (n + 1) (pc + 4) labels' ls = .ok (table, rest)) := by
  rw [passOne] at h
  split at h
  case h_1 => cases h
  case h_2 label part hsplit =>
    have hbearing : instructionBearing l = !part.isEmpty := by rw [instructionBearing, hsplit]
    split at h
    case h_1 => cases h
    case h_2 labels' _ =>
      refine ⟨labels', ?_⟩
      split at h
      case isTrue hempty => exact .inl ⟨by rw [hbearing, hempty, Bool.not_true], h⟩
      case isFalse hpart =>
        split at h
        case isTrue => cases h
        case isFalse hroom =>
          split at h
          case h_1 => cases h
          case h_2 table' rest hrest =>
            obtain ⟨rfl, rfl⟩ := Prod.mk.inj (Except.ok.inj h)
            exact .inr ⟨by simpa [hbearing] using hpart, not_le.mp hroom, part, rest, rfl, hrest⟩

/-- Pass 1 rejects a line for a failure of its own, or a later line is rejected. -/
theorem passOne_cons_error {e : EncodingError} (h : passOne n pc labels (l :: ls) = .error e) :
    e.line = n ∨ ∃ pc' labels', passOne (n + 1) pc' labels' ls = .error e := by
  rw [passOne] at h
  split at h
  case h_1 => cases h; exact .inl rfl
  case h_2 =>
    split at h
    case h_1 => cases h; exact .inl rfl
    case h_2 =>
      split at h
      case isTrue => exact .inr ⟨_, _, h⟩
      case isFalse =>
        split at h
        case isTrue => cases h; exact .inl rfl
        case isFalse =>
          split at h
          case h_1 hrest => cases h; exact .inr ⟨_, _, hrest⟩
          case h_2 => cases h

/-- Pass 1 places the instruction-bearing lines four bytes apart, from `pc` on, and the last of them still in the
PROGRAM segment (R246, R259). -/
theorem passOne_addresses (h : passOne n pc labels ls = .ok (table, placed)) :
    placed.map PlacedLine.address = (List.range (ls.countP instructionBearing)).map (fun k => pc + 4 * k) ∧
    (0 < ls.countP instructionBearing → pc + 4 * ls.countP instructionBearing < 0x104) := by
  induction ls generalizing n pc labels placed with
  | nil => cases h; exact ⟨rfl, fun hpos => absurd hpos (lt_irrefl 0)⟩
  | cons l ls ih =>
    obtain ⟨labels', ⟨hl, hrest⟩ | ⟨hl, hroom, part, rest, rfl, hrest⟩⟩ := passOne_cons_ok h
    · rw [List.countP_cons_of_neg (by simp [hl])]
      exact ih hrest
    · obtain ⟨haddresses, hbound⟩ := ih hrest
      rw [List.countP_cons_of_pos hl]
      refine ⟨?addresses, fun _ => by omega⟩
      case addresses =>
        have hshift : ∀ k, pc + 4 + 4 * k = pc + 4 * (k + 1) := fun k => by omega
        simp [List.range_succ_eq_map, haddresses, hshift]

/-- A placed line has the number of one of the source lines. -/
theorem passOne_lines (h : passOne n pc labels ls = .ok (table, placed)) :
    ∀ p ∈ placed, n ≤ p.line ∧ p.line < n + ls.length := by
  induction ls generalizing n pc labels placed with
  | nil => cases h; exact fun p hp => absurd hp List.not_mem_nil
  | cons l ls ih =>
    rw [List.length_cons]
    intro p hp
    obtain ⟨labels', ⟨-, hrest⟩ | ⟨-, -, part, rest, rfl, hrest⟩⟩ := passOne_cons_ok h
    · have hp' := ih hrest p hp
      omega
    · obtain rfl | hp := List.mem_cons.mp hp
      · simp
      · have hp' := ih hrest p hp
        omega

/-- An error of pass 1 names one of the source lines. -/
theorem passOne_error_line {e : EncodingError} (h : passOne n pc labels ls = .error e) :
    n ≤ e.line ∧ e.line < n + ls.length := by
  induction ls generalizing n pc labels with
  | nil => cases h
  | cons l ls ih =>
    rw [List.length_cons]
    obtain hline | ⟨pc', labels', hrest⟩ := passOne_cons_error h
    · omega
    · have hlater := ih hrest
      omega

end PassOne

/-! ### Pass 2, line by line -/

section PassTwo

variable {labels : LabelTable} {placed : List PlacedLine}

/-- Pass 2 puts one word at the address of each placed line, in their order (R262). -/
theorem passTwo_addresses {program : Program} (h : passTwo labels placed = .ok program) :
    program.map Prod.fst = placed.map PlacedLine.address := by
  induction placed generalizing program with
  | nil => cases h; rfl
  | cons p ps ih =>
    rw [passTwo] at h
    split at h
    case h_1 => cases h
    case h_2 =>
      split at h
      case h_1 => cases h
      case h_2 rest hrest =>
        cases h
        rw [List.map_cons, List.map_cons, ih hrest]

/-- An error of pass 2 names a placed line. -/
theorem passTwo_error_line {e : EncodingError} (h : passTwo labels placed = .error e) :
    ∃ p ∈ placed, e.line = p.line := by
  induction placed with
  | nil => cases h
  | cons p ps ih =>
    rw [passTwo] at h
    split at h
    case h_1 => cases h; exact ⟨p, List.mem_cons_self, rfl⟩
    case h_2 =>
      split at h
      case h_1 hrest =>
        cases h
        obtain ⟨q, hq, hline⟩ := ih hrest
        exact ⟨q, List.mem_cons_of_mem p hq, hline⟩
      case h_2 => cases h

end PassTwo

/-! ### The two passes together -/

/-- A source assembles when both passes accept it. -/
theorem assemble_eq_ok {lines : List (List Char)} {p : Program} (h : assemble lines = .ok p) :
    ∃ labels placed, passOne 1 0x80 [] lines = .ok (labels, placed) ∧ passTwo labels placed = .ok p := by
  rw [assemble] at h
  split at h
  case h_1 => cases h
  case h_2 labels placed hone => exact ⟨labels, placed, hone, h⟩

/-- A source fails to assemble in pass 1, or in pass 2 after pass 1 accepted it. -/
theorem assemble_eq_error {lines : List (List Char)} {e : EncodingError} (h : assemble lines = .error e) :
    passOne 1 0x80 [] lines = .error e ∨
    ∃ labels placed, passOne 1 0x80 [] lines = .ok (labels, placed) ∧ passTwo labels placed = .error e := by
  rw [assemble] at h
  split at h
  case h_1 hone => cases h; exact .inl hone
  case h_2 labels placed hone => exact .inr ⟨labels, placed, hone, h⟩

/-- An address that ProgramMemory can map is a multiple of 4 in the PROGRAM segment (10_state.md R35). -/
theorem programAddress_iff {a : Nat} : programAddress a = true ↔ 0x80 ≤ a ∧ a < 0x100 ∧ a % 4 = 0 := by
  simp [programAddress, Config.progStart, Config.progEnd, and_assoc]

/-- Words four bytes apart from 0x80 on, at most 32 of them, have the form of ProgramMemory (10_state.md R35). -/
theorem program_wf_of_addresses {p : Program} {n : Nat}
    (haddresses : p.map Prod.fst = (List.range n).map (fun k => 0x80 + 4 * k)) (hn : n ≤ 32) : p.wf := by
  refine ⟨?rising, fun entry hentry => ?admitted⟩
  case rising =>
    have hrising : (p.map Prod.fst).Pairwise (· < ·) := by
      rw [haddresses, List.pairwise_map]
      exact List.pairwise_lt_range.imp fun hlt => by omega
    exact List.pairwise_map.mp hrising
  case admitted =>
    have hmem : entry.1 ∈ (List.range n).map (fun k => 0x80 + 4 * k) :=
      haddresses ▸ List.mem_map_of_mem hentry
    obtain ⟨k, hk, heq⟩ := List.mem_map.mp hmem
    have hlt := List.mem_range.mp hk
    exact programAddress_iff.mpr (by omega)

/-- Settles O53: pass 1 chooses the addresses and checks the segment's end, pass 2 keeps the addresses. -/
theorem assembledProgramIsContiguous : Obligations.AssembledProgramIsContiguous := by
  intro lines p hok
  obtain ⟨labels, placed, hone, htwo⟩ := assemble_eq_ok hok
  obtain ⟨hplaced, hbound⟩ := passOne_addresses hone
  have haddresses := (passTwo_addresses htwo).trans hplaced
  have hcount : lines.countP instructionBearing ≤ 32 := by omega
  exact ⟨haddresses, hcount, program_wf_of_addresses haddresses hcount⟩

/-- Settles O54: pass 1 numbers the lines, and pass 2 reports the numbers that pass 1 gave. -/
theorem errorNamesASourceLine : Obligations.ErrorNamesASourceLine := by
  intro lines e herror
  obtain ⟨hfirst, hlast⟩ : 1 ≤ e.line ∧ e.line < 1 + lines.length := by
    obtain hone | ⟨labels, placed, hone, htwo⟩ := assemble_eq_error herror
    · exact passOne_error_line hone
    · obtain ⟨p, hp, hline⟩ := passTwo_error_line htwo
      exact hline ▸ passOne_lines hone p hp
  exact ⟨hfirst, by omega, AsmFailure.kind_eq_rangeError_iff e.failure⟩

/-! ### The grammars exclude each other -/

/-- Every character of a digit string is a digit. -/
theorem digitsFrom_eq_none {digit : Char → Option Nat} {c : Char} (hc : digit c = none) {base acc : Nat}
    {cs : List Char} (hmem : c ∈ cs) : digitsFrom digit base acc cs = none := by
  induction cs generalizing acc with
  | nil => cases hmem
  | cons d ds ih =>
    rw [digitsFrom]
    split
    case h_1 hd =>
      obtain rfl | hrest := List.mem_cons.mp hmem
      · rw [hc] at hd; cases hd
      · exact ih hrest
    case h_2 => rfl

/-- So a numeral has no other character. -/
theorem numeral_eq_none {digit : Char → Option Nat} {c : Char} (hc : digit c = none) {base : Nat} {cs : List Char}
    (hmem : c ∈ cs) : numeral digit base cs = none := by
  rw [numeral, digitsFrom_eq_none hc hmem, ite_self]

/-- An immediate has no parenthesis (R249). -/
theorem parseImmediate_eq_none_of_paren {cs : List Char} (h : '(' ∈ cs) : parseImmediate cs = none := by
  have hdec : decDigit '(' = none := by decide
  have hhex : hexDigit '(' = none := by decide
  unfold parseImmediate
  split
  case h_1 => rw [numeral_eq_none hdec (by simpa using h)]; rfl
  case h_2 => rw [numeral_eq_none hhex (by simpa using h)]; rfl
  case h_3 => rw [numeral_eq_none hhex (by simpa using h)]; rfl
  case h_4 => rw [numeral_eq_none hdec h]; rfl

/-- A memory operand has one (R253). -/
theorem paren_mem_of_parseMemory {cs : List Char} {m : Int × RegNum} (h : parseMemory cs = some m) : '(' ∈ cs := by
  by_contra hno
  have hempty : cs.dropWhile (fun c => c != '(') = [] :=
    List.dropWhile_eq_nil_iff.mpr fun c hc => bne_iff_ne.mpr fun heq => hno (heq ▸ hc)
  rw [parseMemory, hempty] at h
  cases h

/-- A character that begins a label name is no decimal digit (R242). -/
theorem decDigit_eq_none_of_isNameStart {c : Char} (h : isNameStart c = true) : decDigit c = none := by
  have hdigit : c.isDigit = false := by
    simp only [isNameStart, Char.isAlpha, Char.isUpper, Char.isLower, Char.isDigit, UInt32.le_iff_toNat_le,
      Char.ext_iff, ← UInt32.toNat_inj, Bool.or_eq_true, Bool.and_eq_true, decide_eq_true_eq, beq_iff_eq,
      Bool.and_eq_false_imp, decide_eq_false_iff_not, ge_iff_le, Char.reduceVal, UInt32.reduceToNat] at h ⊢
    omega
  rw [decDigit, hdigit, if_neg Bool.false_ne_true]

/-- A label name begins with no digit and no minus sign, so it is no immediate (R242, R249). -/
theorem parseImmediate_eq_none_of_isName {cs : List Char} (h : isName cs = true) : parseImmediate cs = none := by
  cases cs with
  | nil => rfl
  | cons c rest =>
    obtain ⟨hstart, -⟩ := Bool.and_eq_true_iff.mp h
    have hminus : c ≠ '-' := by rintro rfl; exact absurd hstart (by decide)
    have hzero : c ≠ '0' := by rintro rfl; exact absurd hstart (by decide)
    have hnumeral := numeral_eq_none (decDigit_eq_none_of_isNameStart hstart) (base := 10)
      (List.mem_cons_self (a := c) (l := rest))
    unfold parseImmediate
    split
    case h_1 heq => exact absurd (List.cons.inj heq).1 hminus
    case h_2 heq => exact absurd (List.cons.inj heq).1 hzero
    case h_3 heq => exact absurd (List.cons.inj heq).1 hzero
    case h_4 => rw [hnumeral]; rfl

/-! ### One operand -/

/-- A text that some grammar accepts is not empty, as no grammar accepts the empty one (R243). -/
theorem nonEmpty_of_parse {α : Type} {parse : List Char → Option α} (hnil : parse [] = none) {cs : List Char}
    {x : α} (h : parse cs = some x) : nonEmpty cs = pure cs := by
  cases cs with
  | nil => exact absurd (hnil.symm.trans h) (Option.some_ne_none x).symm
  | cons c rest => rfl

/-- A register operand (R248). -/
theorem registerOperand_of_parse {cs : List Char} {r : RegNum} (h : parseRegister cs = some r) :
    registerOperand cs = pure r := by
  rw [registerOperand, nonEmpty_of_parse rfl h, pure_bind, h]
  rfl

/-- A signed 12-bit immediate has the range of its field (R250). -/
theorem field12_eq (v : Int) :
    field12 v = if -2048 ≤ v ∧ v ≤ 2047 then .ok (BitVec.ofInt 12 v) else .error .outOfRangeImmediate := by
  rw [field12, inRange]
  split <;> rfl

/-- A branch offset has the range of its field, and is even (R250, R256). -/
theorem offsetField_eq (v : Int) :
    offsetField v = if -4096 ≤ v ∧ v ≤ 4094 then
      (if v % 2 = 0 then .ok (BitVec.ofInt 13 v) else .error .oddOffset) else .error .outOfRangeImmediate := by
  rw [offsetField, inRange]
  split <;> rfl

/-- ORI's immediate (R252). -/
theorem immediateOperand_of_parse {cs : List Char} {v : Int} (h : parseImmediate cs = some v) :
    immediateOperand cs = field12 v := by
  rw [immediateOperand, nonEmpty_of_parse rfl h, pure_bind, h]
  rfl

/-- SW's operand: the offset is checked, the base is kept (R254). -/
theorem storeOperand_of_parse {cs : List Char} {v : Int} {r : RegNum} (h : parseMemory cs = some (v, r)) :
    storeOperand cs = do return (← field12 v, r) := by
  rw [storeOperand, nonEmpty_of_parse rfl h, pure_bind, h]
  rfl

/-- LW's operand as a bare immediate: its base is x0 (R253). -/
theorem loadOperand_of_parseImmediate {cs : List Char} {v : Int} (h : parseImmediate cs = some v) :
    loadOperand cs = do return (← field12 v, 0#5) := by
  rw [loadOperand, nonEmpty_of_parse rfl h, pure_bind, h]

/-- LW's operand as a memory operand is read as SW's (R253, R254). -/
theorem loadOperand_of_parseMemory {cs : List Char} {v : Int} {r : RegNum} (h : parseMemory cs = some (v, r)) :
    loadOperand cs = do return (← field12 v, r) := by
  rw [loadOperand, nonEmpty_of_parse rfl h, pure_bind,
    parseImmediate_eq_none_of_paren (paren_mem_of_parseMemory h), storeOperand_of_parse h]

/-- A numeric branch offset (R255). -/
theorem branchOperand_of_parse (labels : LabelTable) (address : Nat) {cs : List Char} {v : Int}
    (h : parseImmediate cs = some v) : branchOperand labels address cs = offsetField v := by
  rw [branchOperand, nonEmpty_of_parse rfl h, pure_bind, h]

/-- A name in branch operand position is looked up, and its offset is relative to the branch (R256, R258). -/
theorem branchOperand_of_isName (labels : LabelTable) (address : Nat) {name : List Char} (h : isName name = true) :
    branchOperand labels address name = (do
      offsetField ((← orFail .unresolvedLabel (lookupLabel labels name) : Nat) - (address : Int))) := by
  have hnonEmpty : nonEmpty name = pure name := by
    cases name with
    | nil => cases h
    | cons c rest => rfl
  rw [branchOperand, hnonEmpty, pure_bind, parseImmediate_eq_none_of_isName h]
  exact if_pos h

/-- `.WORD`'s operand, signed or unsigned (R257). -/
theorem wordOperand_of_parse {cs : List Char} {v : Int} (h : parseImmediate cs = some v) :
    wordOperand cs =
      if -2147483648 ≤ v ∧ v ≤ 4294967295 then .ok (BitVec.ofInt 32 v) else .error .outOfRangeImmediate := by
  rw [wordOperand, nonEmpty_of_parse rfl h, pure_bind, h]
  change (inRange _ _ v >>= _) = _
  rw [inRange]
  split <;> rfl

/-! ### The operands of a line -/

/-- Settles O55: each operand reads what its grammar reads, and the range check alone decides the outcome. -/
theorem operandTextsAssemble : Obligations.OperandTextsAssemble := by
  intro labels address ta tb tc ra rb rc v ha hb
  have hra := registerOperand_of_parse ha
  have hrb := registerOperand_of_parse hb
  refine ⟨fun hc => ?registers, fun hv => ⟨?ori, ?lw, ?blt, ?bge, ?word⟩, fun hm => ⟨?lwMemory, ?sw⟩⟩
  case registers =>
    have hrc := registerOperand_of_parse hc
    constructor <;> rw [assembleOperands, hra, hrb, hrc] <;> rfl
  case ori =>
    rw [assembleOperands, hra, hrb, immediateOperand_of_parse hv, field12_eq]
    split <;> rfl
  case lw =>
    rw [assembleOperands, hra, loadOperand_of_parseImmediate hv, field12_eq]
    split <;> rfl
  case blt =>
    rw [assembleOperands, hra, hrb, branchOperand_of_parse labels address hv, offsetField_eq]
    split_ifs <;> rfl
  case bge =>
    rw [assembleOperands, hra, hrb, branchOperand_of_parse labels address hv, offsetField_eq]
    split_ifs <;> rfl
  case word =>
    rw [assembleOperands, wordOperand_of_parse hv]
    split <;> rfl
  case lwMemory =>
    rw [assembleOperands, hra, loadOperand_of_parseMemory hm, field12_eq]
    split <;> rfl
  case sw =>
    rw [assembleOperands, hra, storeOperand_of_parse hm, field12_eq]
    split <;> rfl

/-- Settles O56: no two addresses of the segment, its end included, are further apart than an offset field reaches. -/
theorem labelOffsetIsRelativeToTheBranch : Obligations.LabelOffsetIsRelativeToTheBranch := by
  intro labels address name hname haddress
  have hoperand := branchOperand_of_isName labels address hname
  refine ⟨fun hunknown => ?unresolved, fun target htarget hlo hhi hfour => ?resolved⟩
  case unresolved =>
    rw [hoperand, hunknown]
    rfl
  case resolved =>
    obtain ⟨haddrLo, haddrHi, haddrFour⟩ := programAddress_iff.mp haddress
    have hfield : branchOperand labels address name = offsetField ((target : Int) - (address : Int)) := by
      rw [hoperand, htarget]
      rfl
    exact ⟨by rw [hfield, offsetField_eq, if_pos (by omega), if_pos (by omega)],
      BitVec.toInt_ofInt_eq_self (by decide) (by omega) (by omega)⟩

end Sys2Proof.Machine

/-! # Proofs: accesses that are not admitted, and hazards (60_exceptions.md)

MEM of a word whose address is not admitted does nothing, whatever the word's class. Decode reads the register file
that the cycle begins with, while WB's write shows in the one that it ends with. -/

namespace Sys2Proof.Machine

/-! ### Accesses that are not admitted (R290) -/

/-- At an address that is not admitted a load gives 0 and a store is dropped (20_memory.md R66, R67); a word of any
other class accesses no memory. -/
theorem memoryOut_not_admitted {s : State} {e : ExMem} (he : s.exmem = .record e)
    (ha : dataAdmit e.aluOutput = false) : memoryOut s = (.record ⟨e.ir, 0#32, e.aluOutput⟩, s.dmem) := by
  rw [memoryOut_of_class he, memRead_not_admitted _ ha, memWrite_not_admitted _ ha, ite_self, ite_self]

/-- Settles O43: a word in MEM keeps the machine RUNNING, and its access does nothing. -/
theorem unadmittedAccessIsSilent : Obligations.UnadmittedAccessIsSilent := by
  intro s e he ha
  have hrunning : status s = .running := running_of_stage (.inr (.inr (.inl (by simp [he]))))
  refine ⟨cycleState s, step_of_running hrunning, ?dmem, ?memwb⟩
  case dmem => rw [cycleState_dmem, memoryOut_not_admitted he ha]
  case memwb => rw [cycleState_memwb, memoryOut_not_admitted he ha]

/-! ### A register read in the cycle that writes it (R294) -/

/-- Without a taken branch, Decode reads the register file of before the cycle (40_pipeline.md R131, R137). -/
theorem cycleState_idex_of_record {s : State} {f : IfId} (hf : s.ifid = .record f) (h : ¬TakenIn s) :
    (cycleState s).idex = .record (decodeRecord f s.rf) := by
  rw [cycleState_idex_of_not_taken h, hf, decodeUnit_record]

/-- After the cycle in which a word is in WB, its destination holds VALUE (40_pipeline.md R133). -/
theorem readReg_cycleState_written {s : State} {m : MemWb} (hm : s.memwb = .record m)
    (hw : writesRegister (classOf m.ir) = true) (hrd : rdOf m.ir ≠ 0#5) :
    readReg (cycleState s).rf (rdOf m.ir) = if classOf m.ir = .lw then m.lmd else m.aluOutput := by
  rw [cycleState_rf, writeBackOut_of_class hm, if_pos hw, readReg_writeReg, if_pos ⟨rfl, hrd⟩]

/-- Settles O37: ID takes its operands from the registers before the cycle, WB's write is in those after it. -/
theorem decodeReadsTheOldValue : Obligations.DecodeReadsTheOldValue := by
  intro s t m f hm hf hw hrd hnot hstep
  have hrunning : status s = .running := running_of_stage (.inl (by simp [hf]))
  obtain rfl := eq_cycleState_of_step hrunning hstep
  exact ⟨⟨decodeRecord f s.rf, cycleState_idex_of_record hf hnot, rfl, rfl⟩, readReg_cycleState_written hm hw hrd⟩

end Sys2Proof.Machine

/-! # Proofs: reset, launch and hazards (70_reset_and_hazards.md)

What the host does before the first cycle establishes the invariant, part by part. A word in IF/ID is then followed
twice: for three cycles the register file cannot depend on it, and in the fourth it is the word that WB writes. -/

namespace Sys2Proof.Machine

/-! ### Reset and launch (R320 to R323) -/

/-- Every register of the zeroed register file reads 0. -/
@[simp] theorem readReg_replicate_zero (r : RegNum) : readReg (Vector.replicate 32 0#32) r = 0#32 := by
  simp [readReg]

/-- Settles O1: a stored register, a register read and a byte are all 0; the rest are the values of reset. -/
theorem resetGivesTheStatedValues : Obligations.ResetGivesTheStatedValues := by
  intro s
  refine ⟨fun i => ?stored, fun r => ?read, fun a => ?byte, rfl, rfl, rfl, rfl, rfl, rfl, rfl, rfl⟩
  case stored => simp
  case read => rw [hostReset_rf, readReg_replicate_zero]
  case byte => rw [hostReset_dmem, readByte_nil]

/-- Reset establishes the invariant for any program of the right form: nothing is in flight. -/
theorem invariant_hostReset {s : State} (h : s.program.wf) : Invariant (hostReset s) where
  x0 := by simp
  dmem := by simp [Memory.wf]
  program := h
  pc := by rw [hostReset_pc]; rfl
  ifid := by simp
  idex := by simp
  exmem := by simp
  memwb := by simp
  wbr := by simp

/-- A poke keeps the invariant: it stores as a SW does, and touches nothing else. -/
theorem Invariant.poke {s : State} (hs : Invariant s) (a v : Word) : Invariant (pokeMemoryWord a v s) :=
  { hs with dmem := memWrite_wf hs.dmem a v }

theorem Invariant.pokeAll {s : State} (hs : Invariant s) (pokes : List (Word × Word)) :
    Invariant (pokeAll pokes s) := by
  induction pokes generalizing s with
  | nil => exact hs
  | cons poke rest ih => exact ih (hs.poke poke.1 poke.2)

/-- Every assemble leaves a program of the right form: the assembled one, or the empty one of a failure. -/
theorem hostAssemble_program_wf (lines : List (List Char)) (s : State) : (hostAssemble lines s).program.wf := by
  unfold hostAssemble
  cases hok : assemble lines with
  | ok p =>
    obtain ⟨-, -, hwf⟩ := assembledProgramIsContiguous lines p hok
    exact hwf
  | error e => simp [Program.wf]

/-- Settles O4: the invariant is established by reset, on the assembled program, and kept by each poke. -/
theorem launchMeetsTheInvariant : Obligations.LaunchMeetsTheInvariant := fun lines pokes s =>
  (invariant_hostReset (hostAssemble_program_wf lines s)).pokeAll pokes

/-! ### The back end of a step

WB, MEM and EX of a step in terms of the stages they read. The equations hold of a COMPLETE machine too, where those
stages are empty, so two machines can be compared without asking which of them is COMPLETE. -/

theorem step_rf {s t : State} (h : step s = .next t) : t.rf = (refWriteBack s.memwb s.rf).1 := by
  obtain ⟨hcomplete, rfl⟩ | ⟨-, rfl⟩ := step_cases h
  · obtain ⟨-, -, -, -, hmemwb⟩ := (status_eq_complete _).mp hcomplete
    rw [hmemwb, refWriteBack]
  · rw [cycleState_rf, writeBackOut_eq_ref]

theorem step_memory {s t : State} (h : step s = .next t) : (t.memwb, t.dmem) = refMemory s.exmem s.dmem := by
  obtain ⟨hcomplete, rfl⟩ | ⟨-, rfl⟩ := step_cases h
  · obtain ⟨-, -, -, hexmem, hmemwb⟩ := (status_eq_complete _).mp hcomplete
    rw [hexmem, hmemwb, refMemory]
  · rw [cycleState_memwb, cycleState_dmem, memoryOut_eq_ref]

theorem step_exmem {s t : State} (h : step s = .next t) : t.exmem = (refExecute s.idex).1 := by
  obtain ⟨hcomplete, rfl⟩ | ⟨-, rfl⟩ := step_cases h
  · obtain ⟨-, -, hidex, hexmem, -⟩ := (status_eq_complete _).mp hcomplete
    rw [hidex, hexmem, refExecute]
  · rw [cycleState_exmem, executeOut_eq_ref]

/-! ### A word is unseen for three cycles (R325) -/

/-- Two machines agree on all that can reach the register file within `k` cycles, for `k` at most 3: a stage counts
when it is that near to WB, whatever the two fetch or hold in IF/ID. -/
structure AgreeForCycles (k : Nat) (s u : State) : Prop where
  rf : s.rf = u.rf
  memwb : 1 ≤ k → s.memwb = u.memwb
  dmem : 2 ≤ k → s.dmem = u.dmem
  exmem : 2 ≤ k → s.exmem = u.exmem
  idex : 3 ≤ k → s.idex = u.idex

/-- Over a cycle the agreement shrinks by one cycle. -/
theorem AgreeForCycles.step {k : Nat} {s u s' u' : State} (h : AgreeForCycles (k + 1) s u) (hk : k < 3)
    (hs : step s = .next s') (hu : step u = .next u') : AgreeForCycles k s' u' := by
  have hmemory (h1 : 1 ≤ k) : (s'.memwb, s'.dmem) = (u'.memwb, u'.dmem) := by
    rw [step_memory hs, step_memory hu, h.exmem (by omega), h.dmem (by omega)]
  exact {
    rf := by rw [step_rf hs, step_rf hu, h.rf, h.memwb (by omega)]
    memwb := fun h1 => congrArg Prod.fst (hmemory h1)
    dmem := fun h2 => congrArg Prod.snd (hmemory (by omega))
    exmem := fun h2 => by rw [step_exmem hs, step_exmem hu, h.idex (by omega)]
    idex := fun h3 => absurd h3 (by omega) }

/-- So after `k` cycles the register files are still the same. -/
theorem AgreeForCycles.rf_of_runs {k : Nat} {s u s' u' : State} (h : AgreeForCycles k s u) (hk : k ≤ 3)
    (hs : Runs k s s') (hu : Runs k u u') : s'.rf = u'.rf := by
  induction k generalizing s u with
  | zero =>
    obtain rfl := runs_zero.mp hs
    obtain rfl := runs_zero.mp hu
    exact h.rf
  | succ k ih =>
    obtain ⟨s1, hs1, hs⟩ := runs_succ.mp hs
    obtain ⟨u1, hu1, hu⟩ := runs_succ.mp hu
    exact ih (h.step hk hs1 hu1) (by omega) hs hu

/-- A machine agrees with the one in which the word in IF/ID was never fetched. -/
theorem agreeForCycles_without_ifid (k : Nat) (s : State) : AgreeForCycles k s { s with ifid := .bubble } where
  rf := rfl
  memwb _ := rfl
  dmem _ := rfl
  exmem _ := rfl
  idex _ := rfl

/-! ### A word is written back in the fourth cycle (R325) -/

/-- A stage that shows a word holds a record of it. -/
theorem record_of_word {ρ : Type} {ir : ρ → Word} {latch : Latch ρ} {w : Word} (h : latch.word ir = some w) :
    ∃ r, latch = .record r ∧ ir r = w := by
  cases latch with
  | bubble => cases h
  | record r => exact ⟨r, rfl, Option.some.inj h⟩

theorem ne_bubble_of_word {ρ : Type} {ir : ρ → Word} {latch : Latch ρ} {w : Word} (h : latch.word ir = some w) :
    latch ≠ .bubble := by
  obtain ⟨r, rfl, -⟩ := record_of_word h
  exact nofun

/-- A word in IF/ID that no taken branch squashes moves through the stages, and is in the WB record four cycles on. -/
theorem word_written_back_after_four_cycles {s : State} {f : IfId} (hf : s.ifid = .record f) (h : ¬TakenIn s) :
    ∃ t r, Runs 4 s (cycleState t) ∧ (cycleState t).wbr = .record r ∧ r.ir = f.ir := by
  have hrun1 : Runs 1 s (cycleState s) := runs_cycleState rfl (running_of_stage (.inl (by simp [hf])))
  have hidex1 : (cycleState s).idex.word IdEx.ir = some f.ir := by
    rw [cycleState_idex_word h, hf, word_record]
  have hrun2 := runs_cycleState hrun1 (running_of_stage (.inr (.inl (ne_bubble_of_word hidex1))))
  have hexmem2 := (executeOut_word _).trans hidex1
  rw [← cycleState_exmem] at hexmem2
  have hrun3 := runs_cycleState hrun2 (running_of_stage (.inr (.inr (.inl (ne_bubble_of_word hexmem2)))))
  have hmemwb3 := (memoryOut_word _).trans hexmem2
  rw [← cycleState_memwb] at hmemwb3
  have hrun4 := runs_cycleState hrun3 (running_of_stage (.inr (.inr (.inr (ne_bubble_of_word hmemwb3)))))
  have hwbr4 := (writeBackOut_word _).trans hmemwb3
  rw [← cycleState_wbr] at hwbr4
  obtain ⟨r, hr, hir⟩ := record_of_word hwbr4
  exact ⟨_, r, hrun4, hr, hir⟩

/-- A step that does not write a register back leaves its value alone. -/
theorem readReg_of_step_not_writesBack {s t : State} {rd : RegNum} (hstep : step s = .next t)
    (h : ¬WritesBack rd s) : readReg t.rf rd = readReg s.rf rd := by
  by_contra hchanged
  obtain ⟨m, hm, hw, hrd, -⟩ := registersChangeOnlyInWriteBack s t rd hstep hchanged
  exact h ⟨m, hm, hw, hrd⟩

/-- Nor does a run of such steps change it. -/
theorem readReg_of_runs_not_writesBack {n : Nat} {s t : State} {rd : RegNum} (hrun : Runs n s t)
    (h : ∀ (j : Nat) (v : State), j < n → Runs j s v → ¬WritesBack rd v) : readReg t.rf rd = readReg s.rf rd := by
  induction n generalizing s with
  | zero => rw [runs_zero.mp hrun]
  | succ n ih =>
    obtain ⟨u, hstep, hrest⟩ := runs_succ.mp hrun
    have hlater := ih hrest fun j v hj hv => h (j + 1) v (by omega) (runs_succ.mpr ⟨u, hstep, hv⟩)
    exact hlater.trans (readReg_of_step_not_writesBack hstep (h 0 s (by omega) rfl))

/-- The word in IF/ID reads the registers as they are (40_pipeline.md R137). -/
theorem step_reads_registers {s : State} {g : IfId} (hg : s.ifid = .record g) (h : ¬TakenIn s) :
    ∃ t d, step s = .next t ∧ t.idex = .record d ∧ d.a = readReg s.rf (rs1Of g.ir) ∧
      d.b = readReg s.rf (rs2Of g.ir) :=
  ⟨_, _, step_of_running (running_of_stage (.inl (by simp [hg]))), cycleState_idex_of_record hg h, rfl, rfl⟩

/-- Settles O38: three stages stand between a word in IF/ID and the register file; once it is written, its value stays
until the next write-back to that register. -/
theorem resultIsVisibleFromTheFourthSlotOn : Obligations.ResultIsVisibleFromTheFourthSlotOn := by
  intro s f hf
  refine ⟨fun k t t' hk ht ht' => (agreeForCycles_without_ifid k s).rf_of_runs hk ht ht', fun hw hrd hnot => ?visible⟩
  case visible =>
    obtain ⟨t, r, hrun, hr, hir⟩ := word_written_back_after_four_cycles hf hnot
    obtain ⟨hrrd, hwe, hvalue⟩ := cycleState_wbr_written hr
    rw [hir] at hrrd hwe
    have hwritten : r.we = true := by simp [hwe, hw, hrrd, hrd]
    refine ⟨cycleState t, r, hrun, hr, hir, hrrd, hwritten, fun n u hlater hnone => ?later⟩
    have hheld : readReg u.rf (rdOf f.ir) = r.value := by
      rw [readReg_of_runs_not_writesBack hlater hnone, ← hrrd, hvalue hwritten]
    refine ⟨hheld, fun g hg hgnot => ?_⟩
    obtain ⟨v, d, hstep, hd, ha, hb⟩ := step_reads_registers hg hgnot
    exact ⟨v, d, hstep, hd, fun h1 => by rw [ha, h1, hheld], fun h2 => by rw [hb, h2, hheld]⟩

/-! ### A load right behind a store (R328) -/

/-- A LW in EX goes to MEM with its address. -/
theorem cycleState_exmem_of_lw {s : State} {d : IdEx} (hd : s.idex = .record d) (hlw : classOf d.ir = .lw) :
    (cycleState s).exmem = .record ⟨d.ir, d.a + d.imm, d.b, false⟩ := by
  rw [cycleState_exmem, executeOut_of_class hd, hlw, refExecRule]

/-- A SW in MEM stores. -/
theorem cycleState_dmem_of_sw {s : State} {e : ExMem} (he : s.exmem = .record e) (hsw : classOf e.ir = .sw) :
    (cycleState s).dmem = memWrite s.dmem e.aluOutput e.b := by
  rw [cycleState_dmem, memoryOut_of_class he, if_pos hsw]

/-- Settles O39: the store is made in the cycle that computes the load's address, and the load reads in the next. -/
theorem loadRightBehindAStore : Obligations.LoadRightBehindAStore := by
  intro s e d hwf he hd hsw hlw haddress hadmit
  have hrunning : status s = .running := running_of_stage (.inr (.inl (by simp [hd])))
  obtain ⟨t, hstep, hmemwb⟩ := step_memwb_of_lw (cycleState_exmem_of_lw hd hlw) hlw
  refine ⟨t, _, (runs_succ_running hrunning).mpr (runs_succ.mpr ⟨t, hstep, rfl⟩), hmemwb, rfl, ?loaded⟩
  case loaded =>
    simp only
    rw [cycleState_dmem_of_sw he hsw, memRead_memWrite hwf, if_pos ⟨haddress, hadmit⟩]

end Sys2Proof.Machine

/-! # Proofs: one instruction in flight (40_pipeline.md section 2)

`exec i` is the clock cycle with `i` alone in flight. A stage that holds no other instruction than `i` does the same in
it as in the cycle of the whole machine. Every stage is such a stage for the instruction it holds itself; in a machine
that holds `i` alone all of them are for `i`. -/

namespace Sys2Proof.Machine

/-! ### Reset -/

/-- Reset keeps the program alone, so it differs from `State.reset` in nothing but that. -/
theorem hostReset_of_empty_program {s : State} (h : s.program = []) : hostReset s = State.reset := by
  rw [hostReset, h]
  rfl

/-- Settles O2: `State.reset` is what reset makes of itself, so the laws of the host's reset hold of it. -/
theorem resetStateMeetsTheInvariant : Obligations.ResetStateMeetsTheInvariant := by
  have hreset : hostReset State.reset = State.reset := hostReset_of_empty_program reset_program
  have hinvariant : Invariant (hostReset State.reset) := invariant_hostReset (by simp [Program.wf])
  have hcomplete : status (hostReset State.reset) = .complete := (statusAfterReset State.reset).1.mpr rfl
  rw [hreset] at hinvariant hcomplete
  exact ⟨reset_program, fun _ => hostReset_of_empty_program, hinvariant, hcomplete⟩

/-! ### Sample words -/

/-- A word decodes to the well-formed instruction that it is the encoding of (30_encoding.md R106). -/
theorem decode_eq_of_encode_eq {w : Word} {i : Instr} (hwf : i.wellFormed = true) (h : encode i = w) :
    decode w = i :=
  h ▸ decodeOfEncode i hwf

/-- Settles O5: each word of the table is the encoding of the instruction beside it. -/
theorem sampleWordsDecode : Obligations.SampleWordsDecode :=
  ⟨decode_eq_of_encode_eq rfl (by decide), decode_eq_of_encode_eq rfl (by decide),
    decode_eq_of_encode_eq rfl (by decide), decode_eq_of_encode_eq rfl (by decide),
    decode_eq_of_encode_eq rfl (by decide), decode_eq_of_encode_eq rfl (by decide),
    decode_eq_of_encode_eq rfl (by decide), decode_eq_of_encode_eq rfl (by decide),
    decode_eq_of_encode_eq (by decide) rfl⟩

/-! ### Stages that hold no other instruction -/

section
variable {ρ : Type} {i : Instr} {ir : ρ → Word} {latch : Latch ρ}

/-- A stage holds no other instruction than the one it holds. -/
theorem holdsOnly_of_record {r : ρ} (h : latch = .record r) : HoldsOnly (decode (ir r)) ir latch := by
  intro r' h'
  cases h.symm.trans h'
  rfl

/-- The cycle of `i` sees the whole of such a stage. -/
theorem only_of_holdsOnly (h : HoldsOnly i ir latch) : (latch.only fun r => decode (ir r) == i) = latch := by
  cases latch with
  | bubble => rfl
  | record r => exact only_record_of (beq_iff_eq.mpr (h r rfl))

/-- A stage that may hold only what no word decodes to is empty. -/
theorem bubble_of_holdsOnly (hno : ∀ w, decode w ≠ i) (h : HoldsOnly i ir latch) : latch = .bubble := by
  cases latch with
  | bubble => rfl
  | record r => exact absurd (h r rfl) (hno (ir r))

end

/-! ### Stage by stage, the cycle of the machine and the cycle of one instruction -/

section
variable {i : Instr} {s : State}

/-- WB (40_pipeline.md R133). -/
theorem cycleState_writeBack_eq_cycleOf (h : HoldsOnly i MemWb.ir s.memwb) :
    (cycleState s).rf = (cycleOf i (rulesOf i) s).rf ∧ (cycleState s).wbr = (cycleOf i (rulesOf i) s).wbr := by
  rw [cycleState_rf, cycleState_wbr, cycleOf_rf, cycleOf_wbr, only_of_holdsOnly h]
  cases hm : s.memwb with
  | bubble => simp [writeBackOut_bubble hm]
  | record m => simp [writeBackOut_record hm, h m hm]

/-- MEM (R134). -/
theorem cycleState_memory_eq_cycleOf (h : HoldsOnly i ExMem.ir s.exmem) :
    (cycleState s).memwb = (cycleOf i (rulesOf i) s).memwb ∧
      (cycleState s).dmem = (cycleOf i (rulesOf i) s).dmem := by
  rw [cycleState_memwb, cycleState_dmem, cycleOf_memwb, cycleOf_dmem, only_of_holdsOnly h]
  cases he : s.exmem with
  | bubble => simp [memoryOut_bubble he]
  | record e => simp [memoryOut_record he, h e he]

/-- EX (R135). -/
theorem cycleState_execute_eq_cycleOf (h : HoldsOnly i IdEx.ir s.idex) :
    (cycleState s).exmem = (cycleOf i (rulesOf i) s).exmem := by
  rw [cycleState_exmem, cycleOf_exmem, only_of_holdsOnly h]
  cases hd : s.idex with
  | bubble => simp [executeOut_bubble hd]
  | record d => simp [executeOut_record hd, h d hd]

/-- ID (R137, R138), where both cycles order the same redirect. -/
theorem cycleState_decode_eq_cycleOf (h : HoldsOnly i IfId.ir s.ifid)
    (hredirect : redirect (cycleOf i (rulesOf i) s).exmem = redirect (cycleState s).exmem) :
    (cycleState s).idex = (cycleOf i (rulesOf i) s).idex := by
  rw [cycleState_idex, cycleOf_idex, hredirect, cycleState_exmem, only_of_holdsOnly h]

/-- IF (R139, R140), where both cycles order the same redirect. -/
theorem cycleState_fetch_eq_cycleOf (h : ∀ w, fetchWord s.program s.pc = some w → decode w = i)
    (hredirect : redirect (cycleOf i (rulesOf i) s).exmem = redirect (cycleState s).exmem) :
    (cycleState s).ifid = (cycleOf i (rulesOf i) s).ifid ∧ (cycleState s).pc = (cycleOf i (rulesOf i) s).pc := by
  have hfilter : ((fetchWord s.program s.pc).filter fun w => decode w == i) = fetchWord s.program s.pc := by
    cases hw : fetchWord s.program s.pc with
    | none => rfl
    | some w => exact Option.filter_some_pos (by simp [h w hw])
  rw [cycleState_ifid, cycleState_pc, cycleOf_ifid, cycleOf_pc, hredirect, cycleState_exmem, hfilter]
  exact ⟨rfl, rfl⟩

/-- Where the machine orders no redirect, no instruction orders one by itself. -/
theorem redirect_cycleOf_of_none (i : Instr) (h : redirect (cycleState s).exmem = none) :
    redirect (cycleOf i (rulesOf i) s).exmem = redirect (cycleState s).exmem := by
  obtain hnone | hsame := redirect_cycleOf i s
  · rw [hnone, h]
  · rw [hsame, stage_execute, cycleState_exmem]

end

/-! ### The step and `exec` -/

/-- Settles O11: each stage holds no other instruction than its own, and a cycle without a redirect is one in which
`exec` orders none either. -/
theorem stepRunsTheInstructionInEachStage : Obligations.StepRunsTheInstructionInEachStage := by
  intro s hrunning
  refine ⟨cycleState s, step_of_running hrunning,
    fun m hm => ⟨_, exec_decode m.ir s, cycleState_writeBack_eq_cycleOf (holdsOnly_of_record hm)⟩,
    fun hm => ⟨cycleState_rf_of_bubble hm, ?noWriteBack⟩,
    fun e he => ⟨_, exec_decode e.ir s, cycleState_memory_eq_cycleOf (holdsOnly_of_record he)⟩,
    cycleState_memory_of_bubble,
    fun d hd => ⟨_, exec_decode d.ir s, cycleState_execute_eq_cycleOf (holdsOnly_of_record hd)⟩,
    cycleState_exmem_of_bubble,
    fun hnone => ⟨fun f hf => ⟨_, exec_decode f.ir s, ?decode⟩, fun hf => ?noDecode,
      fun w hw => ⟨_, exec_decode w s, ?fetch⟩, fun hw => ?noFetch⟩,
    fun target htarget => ?squash, rfl, rfl⟩
  case noWriteBack => rw [cycleState_wbr, writeBackOut_bubble hm]
  case decode => exact cycleState_decode_eq_cycleOf (holdsOnly_of_record hf) (redirect_cycleOf_of_none _ hnone)
  case noDecode => rw [cycleState_idex_of_redirect_none hnone, hf, decodeUnit_bubble]
  case fetch =>
    have honly : ∀ w', fetchWord s.program s.pc = some w' → decode w' = decode w := by
      intro w' hw'
      rw [Option.some.inj (hw.symm.trans hw')]
    exact cycleState_fetch_eq_cycleOf honly (redirect_cycleOf_of_none _ hnone)
  case noFetch =>
    rw [cycleState_exmem] at hnone
    rw [cycleState_ifid, cycleState_pc, hnone, hw, redirectFetch_none, fetchUnit_none]
    exact ⟨rfl, rfl⟩
  case squash =>
    obtain ⟨hpc, hifid, hidex⟩ := cycleState_of_redirect_some htarget
    exact ⟨hidex, hifid, hpc⟩

/-- In a running machine something is in flight or fetched, so the one instruction is one that a word decodes to. -/
theorem exists_decode_eq_of_onlyInFlight {i : Instr} {s : State} (hrunning : status s = .running)
    (h : OnlyInFlight i s) : ∃ w, decode w = i := by
  by_contra hno
  push Not at hno
  obtain ⟨hifid, hidex, hexmem, hmemwb, hfetch⟩ := h
  have hnothing : fetchWord s.program s.pc = none :=
    Option.eq_none_iff_forall_ne_some.mpr fun w hw => hno w (hfetch w hw)
  exact (status_eq_running s).mp hrunning ((status_eq_complete s).mpr ⟨hnothing, bubble_of_holdsOnly hno hifid,
    bubble_of_holdsOnly hno hidex, bubble_of_holdsOnly hno hexmem, bubble_of_holdsOnly hno hmemwb⟩)

/-- With `i` alone in flight, the cycle of the machine is the cycle of `i`, field by field. -/
theorem cycleState_eq_cycleOf {i : Instr} {s : State} (h : OnlyInFlight i s) :
    cycleState s = cycleOf i (rulesOf i) s := by
  obtain ⟨hifid, hidex, hexmem, hmemwb, hfetch⟩ := h
  have hexecute := cycleState_execute_eq_cycleOf hidex
  have hredirect := (congrArg redirect hexecute).symm
  obtain ⟨hrf, hwbr⟩ := cycleState_writeBack_eq_cycleOf hmemwb
  obtain ⟨hmem, hdmem⟩ := cycleState_memory_eq_cycleOf hexmem
  obtain ⟨hfetched, hpc⟩ := cycleState_fetch_eq_cycleOf hfetch hredirect
  have hdecode := cycleState_decode_eq_cycleOf hifid hredirect
  exact (State.mk.injEq ..).mpr ⟨hrf, hdmem, hpc, hfetched, hdecode, hexecute, hmem, hwbr, rfl, rfl⟩

/-- Settles O12: the step of a running machine is its cycle, and so is `exec` of the decoded word that is alone in it. -/
theorem stepOfALoneInstructionIsExec : Obligations.StepOfALoneInstructionIsExec := by
  intro i s hrunning h
  obtain ⟨w, rfl⟩ := exists_decode_eq_of_onlyInFlight hrunning h
  rw [step_of_running hrunning, cycleState_eq_cycleOf h, exec_decode]

end Sys2Proof.Machine
